-- ==== Sys2Proof/Word.lean ====
section
/-! DEFINITION. The machine's words and fields (spec/00_scope.md R6, R8, R13). All values are unsigned. -/

namespace Sys2Proof

/-- One byte: a memory byte, a general register, a timer, an immediate kk. -/
abbrev Byte := BitVec 8

/-- Sixteen bits: an instruction word, I, PC, a call-stack slot. -/
abbrev Word := BitVec 16

/-- Four bits of an instruction word: op, x, y or n; as x or y it is a register index (R21). -/
abbrev Nibble := BitVec 4

/-- The twelve-bit address operand nnn. -/
abbrev Addr12 := BitVec 12

/-- The index of VF, the register some instructions also write as a flag (spec/10_state.md R22). -/
def regF : Nibble := 0xF#4

/-- A one-bit truth as a flag byte, 1 or 0. -/
def flagByte (b : Bool) : Byte := if b then 1#8 else 0#8

end Sys2Proof
end

