-- ==== Sys2Proof/Syntax.lean ====
section
/-! DEFINITION. The 35 instructions of spec/opcode_table.json, one constructor a row (spec/30_encoding.md R102).

Bits of the word that a handler ignores (w[11:8] of CLS and RET, R96; n of SE Vx, Vy and of SNE Vx, Vy, R95) are kept as
an operand, because FAULT.word records the word as fetched (spec/60_exceptions.md R342). DEDUCED (log entry 8), safe. -/

namespace Sys2Proof

inductive Instr where
  /-- CLS (R261); `ign` is w[11:8], ignored. -/
  | cls (ign : Nibble)
  /-- RET (R162); `ign` is w[11:8], ignored. -/
  | ret (ign : Nibble)
  /-- SYS nnn (R161), kk not 0xE0 or 0xEE. -/
  | sys (nnn : Addr12)
  /-- JP nnn (R163). -/
  | jp (nnn : Addr12)
  /-- CALL nnn (R164). -/
  | call (nnn : Addr12)
  /-- SE Vx, kk (R181). -/
  | seImm (x : Nibble) (kk : Byte)
  /-- SNE Vx, kk (R182). -/
  | sneImm (x : Nibble) (kk : Byte)
  /-- SE Vx, Vy (R183); n is ignored. -/
  | seReg (x y n : Nibble)
  /-- LD Vx, kk (R201). -/
  | ldImm (x : Nibble) (kk : Byte)
  /-- ADD Vx, kk (R202). -/
  | addImm (x : Nibble) (kk : Byte)
  /-- LD Vx, Vy (R203). -/
  | ldReg (x y : Nibble)
  /-- OR Vx, Vy (R231). -/
  | orReg (x y : Nibble)
  /-- AND Vx, Vy (R232). -/
  | andReg (x y : Nibble)
  /-- XOR Vx, Vy (R233). -/
  | xorReg (x y : Nibble)
  /-- ADD Vx, Vy (R204). -/
  | addReg (x y : Nibble)
  /-- SUB Vx, Vy (R205). -/
  | subReg (x y : Nibble)
  /-- SHR Vx {, Vy} (R234); y is read only when SHIFT_SOURCE = VY. -/
  | shr (x y : Nibble)
  /-- SUBN Vx, Vy (R206). -/
  | subnReg (x y : Nibble)
  /-- SHL Vx {, Vy} (R235); y is read only when SHIFT_SOURCE = VY. -/
  | shl (x y : Nibble)
  /-- SNE Vx, Vy (R184); the second register is the nibble SNE_REG_Y_FIELD chooses. -/
  | sneReg (x y n : Nibble)
  /-- LD I, nnn (R311). -/
  | ldI (nnn : Addr12)
  /-- JP V0, nnn (R165). -/
  | jpV0 (nnn : Addr12)
  /-- RND Vx, kk (R236). -/
  | rnd (x : Nibble) (kk : Byte)
  /-- DRW Vx, Vy, n (R262). -/
  | drw (x y n : Nibble)
  /-- SKP Vx (R281). -/
  | skp (x : Nibble)
  /-- SKNP Vx (R282). -/
  | sknp (x : Nibble)
  /-- LD Vx, DT (R284). -/
  | ldVxDt (x : Nibble)
  /-- LD Vx, K (R283). -/
  | ldVxK (x : Nibble)
  /-- LD DT, Vx (R285). -/
  | ldDtVx (x : Nibble)
  /-- LD ST, Vx (R286). -/
  | ldStVx (x : Nibble)
  /-- ADD I, Vx (R312). -/
  | addI (x : Nibble)
  /-- LD F, Vx (R313). -/
  | ldF (x : Nibble)
  /-- LD B, Vx (R314). -/
  | ldB (x : Nibble)
  /-- LD [I], Vx (R315). -/
  | storeRegs (x : Nibble)
  /-- LD Vx, [I] (R316). -/
  | loadRegs (x : Nibble)
  deriving DecidableEq, Repr

end Sys2Proof
end

