-- ==== Sys2Proof/WellFormed.lean ====
section
/-! DEFINITION. Which terms of Instr stand for an instruction word. The operands' types bound every field; the one check
left is SYS's: a word 0x0nnn whose low byte is 0xE0 or 0xEE is CLS or RET, not SYS (spec/30_encoding.md R96).
DEDUCED (log entry 16), safe. -/

namespace Sys2Proof

/-- The low byte of a twelve-bit operand, which is kk of the word it stands in. -/
def Addr12.low (nnn : Addr12) : Byte := nnn.extractLsb' 0 8

/-- Whether `i` stands for a word of its own. -/
def Instr.wellFormed : Instr → Bool
  | .sys nnn => Addr12.low nnn != 0xE0#8 && Addr12.low nnn != 0xEE#8
  | .cls _ | .ret _ | .jp _ | .call _ | .seImm _ _ | .sneImm _ _ | .seReg _ _ _ | .ldImm _ _ | .addImm _ _
  | .ldReg _ _ | .orReg _ _ | .andReg _ _ | .xorReg _ _ | .addReg _ _ | .subReg _ _ | .shr _ _ | .subnReg _ _
  | .shl _ _ | .sneReg _ _ _ | .ldI _ | .jpV0 _ | .rnd _ _ | .drw _ _ _ | .skp _ | .sknp _ | .ldVxDt _ | .ldVxK _
  | .ldDtVx _ | .ldStVx _ | .addI _ | .ldF _ | .ldB _ | .storeRegs _ | .loadRegs _ => true

end Sys2Proof
end

