-- ==== Sys2Proof/Decode.lean ====
section
/-! DEFINITION. Decoding and encoding (spec/30_encoding.md). Decoding is the two-level tree of R94–R99, total on every
word and on every list of bytes; the encoder is written from the formats of R91. -/

namespace Sys2Proof

/-! ## Fields of a word (R90) -/

def opField (w : Word) : Nibble := w.extractLsb' 12 4
def xField (w : Word) : Nibble := w.extractLsb' 8 4
def yField (w : Word) : Nibble := w.extractLsb' 4 4
def nField (w : Word) : Nibble := w.extractLsb' 0 4
def kkField (w : Word) : Byte := w.extractLsb' 0 8
def nnnField (w : Word) : Addr12 := w.extractLsb' 0 12

/-! ## Formats (R91) -/

/-- Format A: op, then the address operand. -/
def wordA (op : Nibble) (nnn : Addr12) : Word := op ++ nnn

/-- Formats XK, XS and S: op, w[11:8], then the low byte. -/
def wordXK (op x : Nibble) (kk : Byte) : Word := op ++ x ++ kk

/-- Format XYN: four nibbles. -/
def wordXYN (op x y n : Nibble) : Word := op ++ x ++ y ++ n

/-! ## Decoding (R93) -/

/-- What Decode answers: one of the 35 handlers with its operands, or NoHandler, which names the word (R93, R100). -/
inductive Decoded where
  | handler (i : Instr)
  | noHandler (w : Word)
  deriving DecidableEq, Repr

/-- op = 0x0 selects on kk alone (R96). -/
def decode0 (w : Word) : Decoded :=
  match (kkField w).toNat with
  | 0xE0 => .handler (.cls (xField w))
  | 0xEE => .handler (.ret (xField w))
  | _ => .handler (.sys (nnnField w))

/-- op = 0x8 selects on n (R97). -/
def decode8 (w : Word) : Decoded :=
  match (nField w).toNat with
  | 0x0 => .handler (.ldReg (xField w) (yField w))
  | 0x1 => .handler (.orReg (xField w) (yField w))
  | 0x2 => .handler (.andReg (xField w) (yField w))
  | 0x3 => .handler (.xorReg (xField w) (yField w))
  | 0x4 => .handler (.addReg (xField w) (yField w))
  | 0x5 => .handler (.subReg (xField w) (yField w))
  | 0x6 => .handler (.shr (xField w) (yField w))
  | 0x7 => .handler (.subnReg (xField w) (yField w))
  | 0xE => .handler (.shl (xField w) (yField w))
  | _ => .noHandler w

/-- op = 0xE selects on kk (R98). -/
def decodeE (w : Word) : Decoded :=
  match (kkField w).toNat with
  | 0x9E => .handler (.skp (xField w))
  | 0xA1 => .handler (.sknp (xField w))
  | _ => .noHandler w

/-- op = 0xF selects on kk (R99). -/
def decodeF (w : Word) : Decoded :=
  match (kkField w).toNat with
  | 0x07 => .handler (.ldVxDt (xField w))
  | 0x0A => .handler (.ldVxK (xField w))
  | 0x15 => .handler (.ldDtVx (xField w))
  | 0x18 => .handler (.ldStVx (xField w))
  | 0x1E => .handler (.addI (xField w))
  | 0x29 => .handler (.ldF (xField w))
  | 0x33 => .handler (.ldB (xField w))
  | 0x55 => .handler (.storeRegs (xField w))
  | 0x65 => .handler (.loadRegs (xField w))
  | _ => .noHandler w

/-- Decode(w): the first level selects on op (R94, R95). The last arm is op = 0xF. -/
def decode (w : Word) : Decoded :=
  match (opField w).toNat with
  | 0x0 => decode0 w
  | 0x1 => .handler (.jp (nnnField w))
  | 0x2 => .handler (.call (nnnField w))
  | 0x3 => .handler (.seImm (xField w) (kkField w))
  | 0x4 => .handler (.sneImm (xField w) (kkField w))
  | 0x5 => .handler (.seReg (xField w) (yField w) (nField w))
  | 0x6 => .handler (.ldImm (xField w) (kkField w))
  | 0x7 => .handler (.addImm (xField w) (kkField w))
  | 0x8 => decode8 w
  | 0x9 => .handler (.sneReg (xField w) (yField w) (nField w))
  | 0xA => .handler (.ldI (nnnField w))
  | 0xB => .handler (.jpV0 (nnnField w))
  | 0xC => .handler (.rnd (xField w) (kkField w))
  | 0xD => .handler (.drw (xField w) (yField w) (nField w))
  | 0xE => decodeE w
  | _ => decodeF w

/-- The word two consecutive bytes hold, the first being the high byte (spec/20_memory.md R67). -/
def wordOfBytes (hi lo : Byte) : Word := hi ++ lo

/-- The byte of a word at the lower address, w[15:8]. -/
def highByte (w : Word) : Byte := w.extractLsb' 8 8

/-- The byte of a word at the higher address, w[7:0]. -/
def lowByte (w : Word) : Byte := w.extractLsb' 0 8

/-- Decoding a list of bytes: the decoded word and the bytes after it, or that no whole word is there. -/
inductive BytesDecoded where
  | word (d : Decoded) (rest : List Byte)
  | truncated
  deriving DecidableEq, Repr

def decodeBytes : List Byte → BytesDecoded
  | hi :: lo :: rest => .word (decode (wordOfBytes hi lo)) rest
  | _ => .truncated

/-! ## Encoding (R91, R94–R99) -/

/-- The word of an instruction. -/
def encode : Instr → Word
  | .cls ign => wordXK 0x0#4 ign 0xE0#8
  | .ret ign => wordXK 0x0#4 ign 0xEE#8
  | .sys nnn => wordA 0x0#4 nnn
  | .jp nnn => wordA 0x1#4 nnn
  | .call nnn => wordA 0x2#4 nnn
  | .seImm x kk => wordXK 0x3#4 x kk
  | .sneImm x kk => wordXK 0x4#4 x kk
  | .seReg x y n => wordXYN 0x5#4 x y n
  | .ldImm x kk => wordXK 0x6#4 x kk
  | .addImm x kk => wordXK 0x7#4 x kk
  | .ldReg x y => wordXYN 0x8#4 x y 0x0#4
  | .orReg x y => wordXYN 0x8#4 x y 0x1#4
  | .andReg x y => wordXYN 0x8#4 x y 0x2#4
  | .xorReg x y => wordXYN 0x8#4 x y 0x3#4
  | .addReg x y => wordXYN 0x8#4 x y 0x4#4
  | .subReg x y => wordXYN 0x8#4 x y 0x5#4
  | .shr x y => wordXYN 0x8#4 x y 0x6#4
  | .subnReg x y => wordXYN 0x8#4 x y 0x7#4
  | .shl x y => wordXYN 0x8#4 x y 0xE#4
  | .sneReg x y n => wordXYN 0x9#4 x y n
  | .ldI nnn => wordA 0xA#4 nnn
  | .jpV0 nnn => wordA 0xB#4 nnn
  | .rnd x kk => wordXK 0xC#4 x kk
  | .drw x y n => wordXYN 0xD#4 x y n
  | .skp x => wordXK 0xE#4 x 0x9E#8
  | .sknp x => wordXK 0xE#4 x 0xA1#8
  | .ldVxDt x => wordXK 0xF#4 x 0x07#8
  | .ldVxK x => wordXK 0xF#4 x 0x0A#8
  | .ldDtVx x => wordXK 0xF#4 x 0x15#8
  | .ldStVx x => wordXK 0xF#4 x 0x18#8
  | .addI x => wordXK 0xF#4 x 0x1E#8
  | .ldF x => wordXK 0xF#4 x 0x29#8
  | .ldB x => wordXK 0xF#4 x 0x33#8
  | .storeRegs x => wordXK 0xF#4 x 0x55#8
  | .loadRegs x => wordXK 0xF#4 x 0x65#8

/-- The bytes of an instruction in memory order (R67). -/
def encodeBytes (i : Instr) : List Byte := [highByte (encode i), lowByte (encode i)]

/-! ## The opcode table (spec/opcode_table.json) -/

/-- One row: a word belongs to it when the masked word is the match value. -/
structure OpcodeRow where
  mnemonic : String
  mask     : Word
  pattern  : Word
  deriving DecidableEq, Repr

/-- Whether a word has the row's fixed bits. -/
def OpcodeRow.covers (r : OpcodeRow) (w : Word) : Bool := w &&& r.mask == r.pattern

/-- The row of an instruction, as the table writes it. -/
def Instr.row : Instr → OpcodeRow
  | .cls _ => ⟨"CLS", 0xF0FF#16, 0x00E0#16⟩
  | .ret _ => ⟨"RET", 0xF0FF#16, 0x00EE#16⟩
  | .sys _ => ⟨"SYS_nnn", 0xF000#16, 0x0000#16⟩
  | .jp _ => ⟨"JP_nnn", 0xF000#16, 0x1000#16⟩
  | .call _ => ⟨"CALL_nnn", 0xF000#16, 0x2000#16⟩
  | .seImm _ _ => ⟨"SE_Vx__kk", 0xF000#16, 0x3000#16⟩
  | .sneImm _ _ => ⟨"SNE_Vx__kk", 0xF000#16, 0x4000#16⟩
  | .seReg _ _ _ => ⟨"SE_Vx__Vy", 0xF000#16, 0x5000#16⟩
  | .ldImm _ _ => ⟨"LD_Vx__kk", 0xF000#16, 0x6000#16⟩
  | .addImm _ _ => ⟨"ADD_Vx__kk", 0xF000#16, 0x7000#16⟩
  | .ldReg _ _ => ⟨"LD_Vx__Vy", 0xF00F#16, 0x8000#16⟩
  | .orReg _ _ => ⟨"OR_Vx__Vy", 0xF00F#16, 0x8001#16⟩
  | .andReg _ _ => ⟨"AND_Vx__Vy", 0xF00F#16, 0x8002#16⟩
  | .xorReg _ _ => ⟨"XOR_Vx__Vy", 0xF00F#16, 0x8003#16⟩
  | .addReg _ _ => ⟨"ADD_Vx__Vy", 0xF00F#16, 0x8004#16⟩
  | .subReg _ _ => ⟨"SUB_Vx__Vy", 0xF00F#16, 0x8005#16⟩
  | .shr _ _ => ⟨"SHR_Vx____Vy", 0xF00F#16, 0x8006#16⟩
  | .subnReg _ _ => ⟨"SUBN_Vx__Vy", 0xF00F#16, 0x8007#16⟩
  | .shl _ _ => ⟨"SHL_Vx____Vy", 0xF00F#16, 0x800E#16⟩
  | .sneReg _ _ _ => ⟨"SNE_Vx__Vy", 0xF000#16, 0x9000#16⟩
  | .ldI _ => ⟨"LD_I__nnn", 0xF000#16, 0xA000#16⟩
  | .jpV0 _ => ⟨"JP_V0__nnn", 0xF000#16, 0xB000#16⟩
  | .rnd _ _ => ⟨"RND_Vx__kk", 0xF000#16, 0xC000#16⟩
  | .drw _ _ _ => ⟨"DRW_Vx__Vy__n", 0xF000#16, 0xD000#16⟩
  | .skp _ => ⟨"SKP_Vx", 0xF0FF#16, 0xE09E#16⟩
  | .sknp _ => ⟨"SKNP_Vx", 0xF0FF#16, 0xE0A1#16⟩
  | .ldVxDt _ => ⟨"LD_Vx__DT", 0xF0FF#16, 0xF007#16⟩
  | .ldVxK _ => ⟨"LD_Vx__K", 0xF0FF#16, 0xF00A#16⟩
  | .ldDtVx _ => ⟨"LD_DT__Vx", 0xF0FF#16, 0xF015#16⟩
  | .ldStVx _ => ⟨"LD_ST__Vx", 0xF0FF#16, 0xF018#16⟩
  | .addI _ => ⟨"ADD_I__Vx", 0xF0FF#16, 0xF01E#16⟩
  | .ldF _ => ⟨"LD_F__Vx", 0xF0FF#16, 0xF029#16⟩
  | .ldB _ => ⟨"LD_B__Vx", 0xF0FF#16, 0xF033#16⟩
  | .storeRegs _ => ⟨"LD__I___Vx", 0xF0FF#16, 0xF055#16⟩
  | .loadRegs _ => ⟨"LD_Vx___I", 0xF0FF#16, 0xF065#16⟩

/-! ## The host's view of the decoder -/

/-- The word whose table bits are `w`: bits from nbits up are 0, and the longest instruction has 16 bits.
DESIGN CHOICE (log entry 18), safe. -/
def tableWord (nbits w : Nat) : Word := BitVec.ofNat 16 (w % 2 ^ nbits)

/-- The instruction the decoder reads from the table's bits, laid out in memory order; none where it answers NoHandler. -/
def decodeTableWord (nbits w : Nat) : Option Instr :=
  match decodeBytes [highByte (tableWord nbits w), lowByte (tableWord nbits w)] with
  | .word (.handler i) _ => some i
  | .word (.noHandler _) _ => none
  | .truncated => none

end Sys2Proof
end

