-- ==== Sys2Proof/Machine/Flags.lean ====
section
/-! DEFINITION. Every flag and result computation of the ISA: unsigned 8-bit arithmetic that wraps mod 256, with VF as the
only carry and borrow output (spec/43_load_arithmetic.md R200–R207, spec/44_bitwise_shift_random.md R231–R235). -/

namespace Sys2Proof.Machine

/-- The sum mod 256 (R202, R204). -/
def sumByte (a b : Byte) : Byte := BitVec.ofNat 8 ((a.toNat + b.toNat) % 256)

/-- The carry flag: the exact sum exceeds 255 (R204). -/
def carryFlag (a b : Byte) : Byte := flagByte (decide (a.toNat + b.toNat > 255))

/-- The difference a − b mod 256 (R205, R206). -/
def differenceByte (a b : Byte) : Byte := BitVec.ofNat 8 ((a.toNat + 256 - b.toNat) % 256)

/-- NOT borrow of a − b: the minuend is at least the subtrahend (R205, R206). -/
def noBorrowFlag (a b : Byte) : Byte := flagByte (decide (a.toNat ≥ b.toNat))

/-- The source shifted right by one; bit 7 of the result is 0 (R234). -/
def shiftRightByte (a : Byte) : Byte := a >>> 1

/-- The bit shifted out to the right: bit 0 of the source before the shift (R234). -/
def shiftRightFlag (a : Byte) : Byte := flagByte (a.getLsbD 0)

/-- The source shifted left by one, mod 256; bit 0 of the result is 0 (R235). -/
def shiftLeftByte (a : Byte) : Byte := a <<< 1

/-- The bit shifted out to the left: bit 7 of the source before the shift (R235). -/
def shiftLeftFlag (a : Byte) : Byte := flagByte (a.getLsbD 7)

/-- The collision flag of DRW (spec/45_display.md R262). -/
def collisionFlag (hit : Bool) : Byte := flagByte hit

/-- A timer's next value: one less while nonzero (spec/40_engine_cycle.md R124). -/
def countDown (t : Byte) : Byte := if t = 0#8 then 0#8 else t - 1#8

end Sys2Proof.Machine
end

