-- ==== Sys2Proof/Config.lean ====
section
/-! DEFINITION. What is fixed for a session: the sizes of spec/00_scope.md R6, the configuration parameters of R7, and
the free values. -/

namespace Sys2Proof

/-- MEM_SIZE (R6). -/
abbrev memSize : Nat := 4096

/-- The last address of MEM, 0xFFF. -/
abbrev lastAddress : Nat := 0xFFF

/-- PROG_BASE (R6): where Load puts an image, and the creation value of PC. -/
abbrev progBase : Nat := 0x200

/-- PROG_MAX (R6): the longest image Load takes. -/
abbrev progMax : Nat := 3584

/-- SHIFT_SOURCE (R7): which register SHR and SHL read. -/
inductive ShiftSource where
  | vx
  | vy
  deriving DecidableEq, Repr

/-- SNE_REG_Y_FIELD (R7): which nibble names the second register of SNE Vx, Vy. -/
inductive SneField where
  /-- w[7:4] -/
  | y
  /-- w[11:8] -/
  | x
  /-- w[3:0] -/
  | n
  deriving DecidableEq, Repr

/-- FONT (R7, spec/20_memory.md R64): 16 glyphs of 5 bytes; glyph g takes the bytes at g × 5 to g × 5 + 4. -/
abbrev Font := Vector (Vector Byte 5) 16

/-- The configuration parameters of R7, fixed at creation (spec/10_state.md R42).
DESIGN CHOICE (log entry 1), safe: they stand in a field of State, since exec and step take a State alone; a statement
about every state is then a statement about every configuration. -/
structure Config where
  shiftSource : ShiftSource
  sneField    : SneField
  font        : Font
  deriving DecidableEq, Repr

/-- RNG (R7, R12): the byte of the k-th draw, a free value with no body.
DESIGN CHOICE (log entry 4), safe: nothing constrains the byte; State counts the draws. -/
opaque Config.freeByte : Nat → Byte

end Sys2Proof
end

