-- ==== Sys2Proof/Machine/Creation.lean ====
section
/-! DEFINITION. Creation values that are more than a zero: the default configuration and what MEM holds before any write
(spec/00_scope.md R7, spec/20_memory.md R63, R64). -/

namespace Sys2Proof

/-- The default FONT of R64, one row a glyph.
UNVERIFIED: the rule gives them from general knowledge (decision D32; log entry 2), unsafe for claims about glyph bytes. -/
def defaultFont : Font :=
  #v[#v[0xF0#8, 0x90#8, 0x90#8, 0x90#8, 0xF0#8],
     #v[0x20#8, 0x60#8, 0x20#8, 0x20#8, 0x70#8],
     #v[0xF0#8, 0x10#8, 0xF0#8, 0x80#8, 0xF0#8],
     #v[0xF0#8, 0x10#8, 0xF0#8, 0x10#8, 0xF0#8],
     #v[0x90#8, 0x90#8, 0xF0#8, 0x10#8, 0x10#8],
     #v[0xF0#8, 0x80#8, 0xF0#8, 0x10#8, 0xF0#8],
     #v[0xF0#8, 0x80#8, 0xF0#8, 0x90#8, 0xF0#8],
     #v[0xF0#8, 0x10#8, 0x20#8, 0x40#8, 0x40#8],
     #v[0xF0#8, 0x90#8, 0xF0#8, 0x90#8, 0xF0#8],
     #v[0xF0#8, 0x90#8, 0xF0#8, 0x10#8, 0xF0#8],
     #v[0xF0#8, 0x90#8, 0xF0#8, 0x90#8, 0x90#8],
     #v[0xE0#8, 0x90#8, 0xE0#8, 0x90#8, 0xE0#8],
     #v[0xF0#8, 0x80#8, 0x80#8, 0x80#8, 0xF0#8],
     #v[0xE0#8, 0x90#8, 0x90#8, 0x90#8, 0xE0#8],
     #v[0xF0#8, 0x80#8, 0xF0#8, 0x80#8, 0xF0#8],
     #v[0xF0#8, 0x80#8, 0xF0#8, 0x80#8, 0x80#8]]

/-- The defaults of R7: SHIFT_SOURCE = VX, SNE_REG_Y_FIELD = Y, the default FONT.
DESIGN CHOICE (log entry 2), unsafe: a run from State.reset uses these settings. -/
def Config.default : Config := { shiftSource := .vx, sneField := .y, font := defaultFont }

/-- What a byte of MEM holds that nothing has written: FONT at 0x000–0x04F, 0x00 elsewhere (R63, R64). -/
def Config.creationByte (cfg : Config) (a : Nat) : Byte :=
  if h : a < 80 then (cfg.font[a / 5]'(by omega))[a % 5]'(by omega) else 0#8

end Sys2Proof
end

