-- ==== Sys2Proof/Machine/State.lean ====
section
/-! DEFINITION. The machine's whole state (spec/10_state.md R20), as plain data, and its creation value
(spec/70_reset_and_hazards.md R370). -/

namespace Sys2Proof.Machine

/-- MODE (R39): an engine state, not a privilege level (spec/60_exceptions.md R348). -/
inductive Mode where
  | running
  | awaitingKey
  | faulted
  deriving DecidableEq, Repr

/-- The five synchronous faults of the hardware (spec/60_exceptions.md R340). -/
inductive Cause where
  | fetchOutOfRange
  | dataOutOfRange
  | stackOverflow
  | stackUnderflow
  | keyIndexOutOfRange
  deriving DecidableEq, Repr

/-- The cause codes of R340. -/
def Cause.code : Cause → Nat
  | .fetchOutOfRange => 1
  | .dataOutOfRange => 2
  | .stackOverflow => 3
  | .stackUnderflow => 4
  | .keyIndexOutOfRange => 5

/-- The record FAULT holds (R41, R342): no word for a fetch fault. -/
structure FaultRecord where
  cause : Cause
  pc    : Word
  word  : Option Word
  info  : Nat
  deriving DecidableEq, Repr

/-- MEM: the bytes that differ from their creation value, addresses strictly rising (`Memory.wf`). -/
abbrev Memory := List Host.Cell

/-- DISP (R34): 32 rows of 64 pixels; true is a set pixel. DESIGN CHOICE (log entry 14), safe. -/
abbrev Display := Vector (Vector Bool 64) 32

/-- The blank grid. -/
def Display.blank : Display := Vector.replicate 32 (Vector.replicate 64 false)

/-- The state aggregate of R20, one field a component, then the model's own two. -/
structure State where
  /-- MEM. -/
  mem     : Memory
  /-- V0–VF (R21). -/
  v       : Vector Byte 16
  /-- I (R24). -/
  i       : Word
  /-- PC (R25). -/
  pc      : Word
  /-- SP, the number of entries on the stack (R30). -/
  sp      : Byte
  /-- STACK (R29). -/
  stack   : Vector Word 16
  /-- DT (R32). -/
  dt      : Byte
  /-- ST (R33). -/
  st      : Byte
  /-- DISP (R34). -/
  disp    : Display
  /-- KEY (R35): true is pressed. -/
  key     : Vector Bool 16
  /-- REDRAW (R36). -/
  redraw  : Bool
  /-- SOUND (R37). -/
  sound   : Bool
  /-- KEYWAIT (R38). -/
  keywait : Bool
  /-- MODE (R39). -/
  mode    : Mode
  /-- WAIT_X (R40). -/
  waitX   : Nibble
  /-- FAULT (R41). -/
  fault   : Option FaultRecord
  /-- The session's configuration (spec/00_scope.md R7). DESIGN CHOICE (log entry 1): the model's own field, safe. -/
  cfg     : Config
  /-- How many bytes RND has drawn from the random source. DESIGN CHOICE (log entry 4): the model's own field, safe. -/
  draws   : Nat
  deriving DecidableEq, Repr

/-- Why the MODEL stops with a fault. The hardware's own faults are not here: taking one is a next state (R342). -/
inductive Fault where
  /-- Raised by CALL and RET when SP is above 16, so that STACK has no slot to push to or pop from. The spec gives no effect,
  since SP stays in 0..16 (R30); no run reaches it. DEDUCED (log entry 6), safe: the model stops. -/
  | noStackSlot (sp : Byte)
  deriving DecidableEq, Repr

/-- Why a step has no next state. -/
inductive Refusal where
  /-- Raised by exec's arm of an instruction that has no meaning yet (none is left). Safe. -/
  | notModelled (mnemonic : String)
  /-- Raised by a Cycle requested while MODE = Faulted: it changes nothing and returns Refused(Faulted)
  (spec/40_engine_cycle.md R123). Safe: the spec's own refusal. -/
  | engineFaulted
  deriving DecidableEq, Repr

/-- Create(config, RNG) (spec/70_reset_and_hazards.md R370): MEM holds its creation contents (nothing is listed), PC = 0x200,
MODE = Running, FAULT = none, zero or false for the rest (R20). `rng` says where in the free stream the injected random
source begins. DESIGN CHOICE (log entry 4). -/
def State.create (cfg : Config) (rng : Nat) : State where
  mem := []
  v := Vector.replicate 16 0#8
  i := 0#16
  pc := 0x200#16
  sp := 0#8
  stack := Vector.replicate 16 0#16
  dt := 0#8
  st := 0#8
  disp := Display.blank
  key := Vector.replicate 16 false
  redraw := false
  sound := false
  keywait := false
  mode := .running
  waitX := 0#4
  fault := none
  cfg := cfg
  draws := rng

/-- The machine right after reset: creation with the default configuration of R7. DESIGN CHOICE (log entries 2, 4), unsafe
where a claim needs the settings chosen. -/
def State.reset : State := State.create Config.default 0

end Sys2Proof.Machine
end

