-- ==== Sys2Proof/Machine/Ops.lean ====
section
/-! DEFINITION. The named operations over registers, memory, stack, display and random source; taking a fault; and the frame
every cycle shares (spec/40_engine_cycle.md R120). -/

namespace Sys2Proof.Machine

/-! ## General registers (spec/10_state.md R21) -/

/-- V[x]. -/
def State.reg (s : State) (x : Nibble) : Byte := s.v[x.toNat]'(x.isLt)

/-- V[x] <- b. -/
def State.setReg (s : State) (x : Nibble) (b : Byte) : State := { s with v := s.v.set x.toNat b x.isLt }

/-- The write order of spec/43_load_arithmetic.md R200: VF <- flag, then V[x] <- result, so the result wins when x = F. -/
def State.setFlagThenReg (s : State) (x : Nibble) (flag result : Byte) : State := (s.setReg regF flag).setReg x result

/-! ## PC, I, SP -/

/-- PC <- target. -/
def State.setPc (s : State) (target : Word) : State := { s with pc := target }

/-- PC <- trunc_16(PC + 2): the cycle's advance and a skip (R26, R27). -/
def State.advance (s : State) : State := s.setPc (s.pc + 2#16)

/-- Skip when the condition holds (spec/42_conditional_skip.md R180). -/
def State.skipIf (s : State) (c : Bool) : State := if c then s.advance else s

/-- I <- value. -/
def State.setI (s : State) (value : Word) : State := { s with i := value }

/-- STACK[j]; none where the array has no such slot (R29). -/
def State.slot? (s : State) (j : Nat) : Option Word := s.stack[j]?

/-! ## Memory (spec/20_memory.md) -/

/-- The listed byte at an address, if it is listed. -/
def Memory.lookup : Memory → Nat → Option Byte
  | [], _ => none
  | (k, b) :: m, a => if a = k then some b else Memory.lookup m a

/-- List an address, keeping addresses rising. -/
def Memory.put : Memory → Nat → Byte → Memory
  | [], a, b => [(a, b)]
  | (k, c) :: m, a, b =>
    if a < k then (a, b) :: (k, c) :: m
    else if a = k then (a, b) :: m
    else (k, c) :: Memory.put m a b

/-- Unlist an address. -/
def Memory.drop (m : Memory) (a : Nat) : Memory := m.filter (fun c => c.1 ≠ a)

/-- The canonical form from address `lo` up: addresses strictly rising and inside MEM, no byte equal to what an unlisted
address reads as. -/
def Memory.wfFrom (cfg : Config) : Nat → Memory → Bool
  | _, [] => true
  | lo, (k, b) :: m =>
    decide (lo ≤ k) && decide (k < memSize) && b != cfg.creationByte k && Memory.wfFrom cfg (k + 1) m

/-- The canonical form of MEM. -/
def Memory.wf (cfg : Config) (m : Memory) : Bool := Memory.wfFrom cfg 0 m

/-- MEM[a] for an address in range: the most recent write, or the creation value (R73). -/
def State.byteAt (s : State) (a : Nat) : Byte := (Memory.lookup s.mem a).getD (s.cfg.creationByte a)

/-- MEM[a] <- b for an address in range; writing the creation value removes the entry. -/
def State.setByte (s : State) (a : Nat) (b : Byte) : State :=
  { s with mem := if b = s.cfg.creationByte a then Memory.drop s.mem a else Memory.put s.mem a b }

/-- The bytes at base, base + 1, … (R66: one access a byte, ascending). -/
def State.bytesAt (s : State) (base : Nat) : Nat → List Byte
  | 0 => []
  | n + 1 => s.byteAt base :: s.bytesAt (base + 1) n

/-- Store a list of bytes at base, base + 1, … -/
def State.setBytes (s : State) (base : Nat) : List Byte → State
  | [] => s
  | b :: bs => (s.setByte base b).setBytes (base + 1) bs

/-- V0 … V[n-1] as a list, for the bulk store. -/
def State.firstRegs (s : State) (n : Nat) : List Byte := (List.range n).map (fun j => s.reg (BitVec.ofNat 4 j))

/-- V[j] <- MEM[base + j] for j < n, lowest first, for the bulk load. -/
def State.loadFirstRegs (s : State) (base : Nat) : Nat → State
  | 0 => s
  | n + 1 => let t := s.loadFirstRegs base n; t.setReg (BitVec.ofNat 4 n) (t.byteAt (base + n))

/-! ## Display (spec/45_display.md R260) -/

/-- The pixel at a row and a column, each taken modulo the grid. -/
def Display.pixel (d : Display) (row col : Nat) : Bool :=
  (d[row % 32]'(Nat.mod_lt _ (by decide)))[col % 64]'(Nat.mod_lt _ (by decide))

/-- The grid with that pixel inverted. -/
def Display.flip (d : Display) (row col : Nat) : Display :=
  d.set (row % 32)
    ((d[row % 32]'(Nat.mod_lt _ (by decide))).set (col % 64) (!d.pixel row col) (Nat.mod_lt _ (by decide)))
    (Nat.mod_lt _ (by decide))

/-- XOR one sprite bit onto a pixel; the second component tells whether a set pixel has been turned off so far. -/
def Display.xorBit (acc : Display × Bool) (bit : Bool) (row col : Nat) : Display × Bool :=
  if bit then (acc.1.flip row col, acc.2 || acc.1.pixel row col) else acc

/-- XOR the first `k` pixels of a sprite byte, bit 7 leftmost. -/
def Display.xorRow (acc : Display × Bool) (b : Byte) (row col : Nat) : Nat → Display × Bool
  | 0 => acc
  | k + 1 => Display.xorBit (Display.xorRow acc b row col k) (b.getLsbD (7 - k)) row (col + k)

/-- XOR a sprite, one byte a row, downwards. -/
def Display.xorSprite (acc : Display × Bool) (row col : Nat) : List Byte → Display × Bool
  | [] => acc
  | b :: bs => Display.xorSprite (Display.xorRow acc b row col 8) (row + 1) col bs

/-! ## Random source (spec/00_scope.md R12) -/

/-- Draw(): one free byte. -/
def State.drawn (s : State) : Byte := Config.freeByte s.draws

/-- The state after one draw. -/
def State.afterDraw (s : State) : State := { s with draws := s.draws + 1 }

/-! ## Handlers and faults -/

/-- How a handler ends: it completes, it raises one of the hardware's faults (spec/00_scope.md R11), or the model stops. -/
inductive Handled where
  | done (s : State)
  | raised (cause : Cause) (info : Nat)
  | stuck (f : Fault)
  deriving DecidableEq, Repr

/-- The first address above 0xFFF of an access of `len` bytes at `base`, if there is one: max(base, 0x1000) (spec/20_memory.md
R68, spec/60_exceptions.md R345). Addresses are exact integers. -/
def firstBadAddress (base len : Nat) : Option Nat :=
  if 0 < len ∧ base + len - 1 > lastAddress then some (max base 0x1000) else none

/-- Check every address of an access before making any (R68). This is also MemRead's and MemWrite's own raise (R66): DEDUCED (log
entry 13), safe. -/
def withRange (base len : Nat) (h : Handled) : Handled :=
  match firstBadAddress base len with
  | some a => .raised .dataOutOfRange a
  | none => h

/-- Taking a fault, the one trap entry (spec/60_exceptions.md R342): every write of the cycle is undone, MODE <- Faulted, FAULT
records the cause, the PC of the faulting instruction, its word and the info. `s0` is the state the cycle began in.
There is no return from a fault (R344): only Create leaves Faulted. -/
def takeFault (s0 : State) (cause : Cause) (word : Option Word) (info : Nat) : State :=
  { s0 with mode := .faulted, fault := some { cause := cause, pc := s0.pc, word := word, info := info } }

/-- TimerStep (spec/40_engine_cycle.md R124): SOUND is set when ST is nonzero before its decrement. -/
def timerStep (s : State) : State :=
  { s with dt := countDown s.dt, st := countDown s.st, sound := s.sound || s.st != 0#8 }

/-- The cycle that executes one handler, begun in `s0` with the word already fetched (R120, R121): PC advances by 2, the handler
runs, then the timer step; a raise undoes it all. DESIGN CHOICE (log entry 7), safe: exec is the whole cycle after the
fetch, so that the state put back by a raise is at hand. -/
def runCycle (w : Word) (handler : State → Handled) (s0 : State) : Host.Outcome State Fault Refusal :=
  match handler s0.advance with
  | .done s => .next (timerStep s)
  | .raised cause info => .next (takeFault s0 cause (some w) info)
  | .stuck f => .fault f

/-- The cycle of a word with no handler (R125): PC advances, nothing executes, the timers step. -/
def noHandlerCycle (s0 : State) : State := timerStep s0.advance

/-! ## Fetch (spec/20_memory.md R67) -/

/-- Fetch(PC): none when PC + 1 > 0xFFF, tested before either byte is read; else the byte at PC is the high byte. -/
def State.fetch (s : State) : Option Word :=
  if s.pc.toNat + 1 > lastAddress then none
  else some (wordOfBytes (s.byteAt s.pc.toNat) (s.byteAt (s.pc.toNat + 1)))

/-- The state in which the next cycle fetches: Running, with nothing that stops the fetch. -/
def State.readyToFetch (s : State) : State :=
  let s := if s.mode = .running then s else { s with mode := .running, keywait := false, fault := none }
  if s.pc.toNat + 1 > lastAddress then { s with pc := 0x200#16 } else s

/-- A word stored at PC, high byte first. -/
def State.placeWord (s : State) (w : Word) : State :=
  (s.setByte s.pc.toNat (highByte w)).setByte (s.pc.toNat + 1) (lowByte w)

end Sys2Proof.Machine
end

