-- ==== Sys2Proof/Machine/Operands.lean ====
section
/-! DEFINITION. Operand forms (spec/30_encoding.md R92): nothing is sign-extended, scaled or shifted; which register an operand
names may hang on the configuration (spec/00_scope.md R7). -/

namespace Sys2Proof.Machine

/-- nnn zero-extended to 16 bits (R92). -/
def addrOperand (nnn : Addr12) : Word := nnn.setWidth 16

/-- nnn + V0 in 16 bits (spec/41_control_flow.md R165). -/
def indexedTarget (nnn : Addr12) (v0 : Byte) : Word := nnn.setWidth 16 + v0.setWidth 16

/-- The value SHR and SHL shift: V[x] or V[y] by SHIFT_SOURCE (spec/44_bitwise_shift_random.md R234, R235). -/
def State.shiftOperand (s : State) (x y : Nibble) : Byte :=
  match s.cfg.shiftSource with
  | .vx => s.reg x
  | .vy => s.reg y

/-- The second register index of SNE Vx, Vy by SNE_REG_Y_FIELD (spec/42_conditional_skip.md R184). -/
def State.sneOperand (s : State) (x y n : Nibble) : Nibble :=
  match s.cfg.sneField with
  | .y => y
  | .x => x
  | .n => n

/-- The address of the glyph for a value: value × 5, never masked (spec/47_index_memory.md R313). -/
def glyphAddress (value : Byte) : Word := BitVec.ofNat 16 (value.toNat * 5)

/-- Hundreds, tens, units (R314). -/
def decimalDigits (value : Byte) : List Byte :=
  [BitVec.ofNat 8 (value.toNat / 100), BitVec.ofNat 8 (value.toNat / 10 % 10), BitVec.ofNat 8 (value.toNat % 10)]

/-- I advanced by a bulk transfer of V0 through V[x]: (I + x + 1) mod 65536 (R315, R316). -/
def State.bulkEnd (s : State) (x : Nibble) : Word := BitVec.ofNat 16 (s.i.toNat + x.toNat + 1)

/-- KEY[k] for the key number in a register; none above 15 (spec/46_keypad_timers.md R281, R282). -/
def State.keyNumbered (s : State) (k : Byte) : Option Bool := s.key[k.toNat]?

end Sys2Proof.Machine
end

