-- ==== Sys2Proof/Machine/Bitwise.lean ====
section
/-! DEFINITION. Bitwise, shift and random (spec/44_bitwise_shift_random.md). OR, AND and XOR write no flag; the shifts write VF,
then V[x] (R230). -/

namespace Sys2Proof.Machine

/-- OR Vx, Vy (R231). -/
def handleOrReg (x y : Nibble) (s : State) : Handled := .done (s.setReg x (s.reg x ||| s.reg y))

/-- AND Vx, Vy (R232). -/
def handleAndReg (x y : Nibble) (s : State) : Handled := .done (s.setReg x (s.reg x &&& s.reg y))

/-- XOR Vx, Vy (R233). -/
def handleXorReg (x y : Nibble) (s : State) : Handled := .done (s.setReg x (s.reg x ^^^ s.reg y))

/-- SHR Vx {, Vy} (R234). -/
def handleShr (x y : Nibble) (s : State) : Handled :=
  .done (s.setFlagThenReg x (shiftRightFlag (s.shiftOperand x y)) (shiftRightByte (s.shiftOperand x y)))

/-- SHL Vx {, Vy} (R235). -/
def handleShl (x y : Nibble) (s : State) : Handled :=
  .done (s.setFlagThenReg x (shiftLeftFlag (s.shiftOperand x y)) (shiftLeftByte (s.shiftOperand x y)))

/-- RND Vx, kk (R236): one draw each execution, whatever the mask. -/
def handleRnd (x : Nibble) (kk : Byte) (s : State) : Handled := .done (s.afterDraw.setReg x (s.drawn &&& kk))

def execOrReg (x y : Nibble) (s : State) : Host.Outcome State Fault Refusal :=
  runCycle (encode (.orReg x y)) (handleOrReg x y) s

def execAndReg (x y : Nibble) (s : State) : Host.Outcome State Fault Refusal :=
  runCycle (encode (.andReg x y)) (handleAndReg x y) s

def execXorReg (x y : Nibble) (s : State) : Host.Outcome State Fault Refusal :=
  runCycle (encode (.xorReg x y)) (handleXorReg x y) s

def execShr (x y : Nibble) (s : State) : Host.Outcome State Fault Refusal :=
  runCycle (encode (.shr x y)) (handleShr x y) s

def execShl (x y : Nibble) (s : State) : Host.Outcome State Fault Refusal :=
  runCycle (encode (.shl x y)) (handleShl x y) s

def execRnd (x : Nibble) (kk : Byte) (s : State) : Host.Outcome State Fault Refusal :=
  runCycle (encode (.rnd x kk)) (handleRnd x kk) s

end Sys2Proof.Machine
end

