-- ==== Sys2Proof/Machine/ControlFlow.lean ====
section
/-! DEFINITION. SYS, RET, JP, CALL, JP V0 (spec/41_control_flow.md). A handler runs with PC already advanced (R160). -/

namespace Sys2Proof.Machine

/-- SYS nnn does nothing (R161). -/
def handleSys (s : State) : Handled := .done s

/-- RET (R162): StackUnderflow at SP = 0; else SP <- SP - 1, PC <- STACK[SP]. The slot is not cleared (R31). -/
def handleRet (s : State) : Handled :=
  if s.sp = 0#8 then .raised .stackUnderflow s.sp.toNat
  else
    match s.slot? (s.sp.toNat - 1) with
    | some target => .done { s with sp := s.sp - 1#8, pc := target }
    | none => .stuck (.noStackSlot s.sp)

/-- JP nnn (R163). -/
def handleJp (nnn : Addr12) (s : State) : Handled := .done (s.setPc (addrOperand nnn))

/-- CALL nnn (R164): StackOverflow at SP = 16; else STACK[SP] <- PC, SP <- SP + 1, PC <- nnn. -/
def handleCall (nnn : Addr12) (s : State) : Handled :=
  if s.sp = 16#8 then .raised .stackOverflow s.sp.toNat
  else if h : s.sp.toNat < 16 then
    .done { s with stack := s.stack.set s.sp.toNat s.pc h, sp := s.sp + 1#8, pc := addrOperand nnn }
  else .stuck (.noStackSlot s.sp)

/-- JP V0, nnn (R165): the register is always V0. -/
def handleJpV0 (nnn : Addr12) (s : State) : Handled := .done (s.setPc (indexedTarget nnn (s.reg 0#4)))

def execSys (nnn : Addr12) (s : State) : Host.Outcome State Fault Refusal := runCycle (encode (.sys nnn)) handleSys s

def execRet (ign : Nibble) (s : State) : Host.Outcome State Fault Refusal := runCycle (encode (.ret ign)) handleRet s

def execJp (nnn : Addr12) (s : State) : Host.Outcome State Fault Refusal :=
  runCycle (encode (.jp nnn)) (handleJp nnn) s

def execCall (nnn : Addr12) (s : State) : Host.Outcome State Fault Refusal :=
  runCycle (encode (.call nnn)) (handleCall nnn) s

def execJpV0 (nnn : Addr12) (s : State) : Host.Outcome State Fault Refusal :=
  runCycle (encode (.jpV0 nnn)) (handleJpV0 nnn) s

end Sys2Proof.Machine
end

