-- ==== Sys2Proof/Machine/IndexMemory.lean ====
section
/-! DEFINITION. The address register and memory transfers (spec/47_index_memory.md). Every address of an access is checked
before the first is used (R310); no flag is written. -/

namespace Sys2Proof.Machine

/-- LD I, nnn (R311). -/
def handleLdI (nnn : Addr12) (s : State) : Handled := .done (s.setI (addrOperand nnn))

/-- ADD I, Vx (R312): mod 65536, VF not written. -/
def handleAddI (x : Nibble) (s : State) : Handled :=
  .done (s.setI (BitVec.ofNat 16 (s.i.toNat + (s.reg x).toNat)))

/-- LD F, Vx (R313). -/
def handleLdF (x : Nibble) (s : State) : Handled := .done (s.setI (glyphAddress (s.reg x)))

/-- LD B, Vx (R314): hundreds, tens, units at I, I+1, I+2; I is not changed. -/
def handleLdB (x : Nibble) (s : State) : Handled :=
  withRange s.i.toNat 3 <| .done (s.setBytes s.i.toNat (decimalDigits (s.reg x)))

/-- LD [I], Vx (R315): V0 through V[x] stored at I, then I advanced by x + 1. -/
def handleStoreRegs (x : Nibble) (s : State) : Handled :=
  withRange s.i.toNat (x.toNat + 1) <|
    .done ((s.setBytes s.i.toNat (s.firstRegs (x.toNat + 1))).setI (s.bulkEnd x))

/-- LD Vx, [I] (R316): V0 through V[x] loaded from I, then I advanced by x + 1. -/
def handleLoadRegs (x : Nibble) (s : State) : Handled :=
  withRange s.i.toNat (x.toNat + 1) <|
    .done ((s.loadFirstRegs s.i.toNat (x.toNat + 1)).setI (s.bulkEnd x))

def execLdI (nnn : Addr12) (s : State) : Host.Outcome State Fault Refusal :=
  runCycle (encode (.ldI nnn)) (handleLdI nnn) s

def execAddI (x : Nibble) (s : State) : Host.Outcome State Fault Refusal :=
  runCycle (encode (.addI x)) (handleAddI x) s

def execLdF (x : Nibble) (s : State) : Host.Outcome State Fault Refusal := runCycle (encode (.ldF x)) (handleLdF x) s

def execLdB (x : Nibble) (s : State) : Host.Outcome State Fault Refusal := runCycle (encode (.ldB x)) (handleLdB x) s

def execStoreRegs (x : Nibble) (s : State) : Host.Outcome State Fault Refusal :=
  runCycle (encode (.storeRegs x)) (handleStoreRegs x) s

def execLoadRegs (x : Nibble) (s : State) : Host.Outcome State Fault Refusal :=
  runCycle (encode (.loadRegs x)) (handleLoadRegs x) s

end Sys2Proof.Machine
end

