-- ==== Sys2Proof/Machine/KeypadTimers.lean ====
section
/-! DEFINITION. Keypad and timer instructions (spec/46_keypad_timers.md). KEY is only read (R280); the timer step that follows
in the same cycle is runCycle's. -/

namespace Sys2Proof.Machine

/-- SKP Vx (R281): KeyIndexOutOfRange when V[x] > 15; else skip if KEY[V[x]] is pressed. -/
def handleSkp (x : Nibble) (s : State) : Handled :=
  match s.keyNumbered (s.reg x) with
  | none => .raised .keyIndexOutOfRange (s.reg x).toNat
  | some pressed => .done (s.skipIf pressed)

/-- SKNP Vx (R282): KeyIndexOutOfRange when V[x] > 15; else skip if KEY[V[x]] is not pressed. -/
def handleSknp (x : Nibble) (s : State) : Handled :=
  match s.keyNumbered (s.reg x) with
  | none => .raised .keyIndexOutOfRange (s.reg x).toNat
  | some pressed => .done (s.skipIf (!pressed))

/-- LD Vx, DT (R284): DT as it was before this cycle's timer step. -/
def handleLdVxDt (x : Nibble) (s : State) : Handled := .done (s.setReg x s.dt)

/-- LD Vx, K (R283): the engine waits; no register is written until KeyChange completes the wait. -/
def handleLdVxK (x : Nibble) (s : State) : Handled :=
  .done { s with waitX := x, keywait := true, mode := .awaitingKey }

/-- LD DT, Vx (R285). -/
def handleLdDtVx (x : Nibble) (s : State) : Handled := .done { s with dt := s.reg x }

/-- LD ST, Vx (R286). -/
def handleLdStVx (x : Nibble) (s : State) : Handled := .done { s with st := s.reg x }

def execSkp (x : Nibble) (s : State) : Host.Outcome State Fault Refusal := runCycle (encode (.skp x)) (handleSkp x) s

def execSknp (x : Nibble) (s : State) : Host.Outcome State Fault Refusal :=
  runCycle (encode (.sknp x)) (handleSknp x) s

def execLdVxDt (x : Nibble) (s : State) : Host.Outcome State Fault Refusal :=
  runCycle (encode (.ldVxDt x)) (handleLdVxDt x) s

def execLdVxK (x : Nibble) (s : State) : Host.Outcome State Fault Refusal :=
  runCycle (encode (.ldVxK x)) (handleLdVxK x) s

def execLdDtVx (x : Nibble) (s : State) : Host.Outcome State Fault Refusal :=
  runCycle (encode (.ldDtVx x)) (handleLdDtVx x) s

def execLdStVx (x : Nibble) (s : State) : Host.Outcome State Fault Refusal :=
  runCycle (encode (.ldStVx x)) (handleLdStVx x) s

end Sys2Proof.Machine
end

