-- ==== Sys2Proof/Machine/LoadArith.lean ====
section
/-! DEFINITION. Loads and 8-bit arithmetic (spec/43_load_arithmetic.md). Operands are read before any write (R200). -/

namespace Sys2Proof.Machine

/-- LD Vx, kk (R201). -/
def handleLdImm (x : Nibble) (kk : Byte) (s : State) : Handled := .done (s.setReg x kk)

/-- ADD Vx, kk (R202): VF is not written. -/
def handleAddImm (x : Nibble) (kk : Byte) (s : State) : Handled := .done (s.setReg x (sumByte (s.reg x) kk))

/-- LD Vx, Vy (R203). -/
def handleLdReg (x y : Nibble) (s : State) : Handled := .done (s.setReg x (s.reg y))

/-- ADD Vx, Vy (R204). -/
def handleAddReg (x y : Nibble) (s : State) : Handled :=
  .done (s.setFlagThenReg x (carryFlag (s.reg x) (s.reg y)) (sumByte (s.reg x) (s.reg y)))

/-- SUB Vx, Vy (R205): Vx − Vy. -/
def handleSubReg (x y : Nibble) (s : State) : Handled :=
  .done (s.setFlagThenReg x (noBorrowFlag (s.reg x) (s.reg y)) (differenceByte (s.reg x) (s.reg y)))

/-- SUBN Vx, Vy (R206): Vy − Vx. -/
def handleSubnReg (x y : Nibble) (s : State) : Handled :=
  .done (s.setFlagThenReg x (noBorrowFlag (s.reg y) (s.reg x)) (differenceByte (s.reg y) (s.reg x)))

def execLdImm (x : Nibble) (kk : Byte) (s : State) : Host.Outcome State Fault Refusal :=
  runCycle (encode (.ldImm x kk)) (handleLdImm x kk) s

def execAddImm (x : Nibble) (kk : Byte) (s : State) : Host.Outcome State Fault Refusal :=
  runCycle (encode (.addImm x kk)) (handleAddImm x kk) s

def execLdReg (x y : Nibble) (s : State) : Host.Outcome State Fault Refusal :=
  runCycle (encode (.ldReg x y)) (handleLdReg x y) s

def execAddReg (x y : Nibble) (s : State) : Host.Outcome State Fault Refusal :=
  runCycle (encode (.addReg x y)) (handleAddReg x y) s

def execSubReg (x y : Nibble) (s : State) : Host.Outcome State Fault Refusal :=
  runCycle (encode (.subReg x y)) (handleSubReg x y) s

def execSubnReg (x y : Nibble) (s : State) : Host.Outcome State Fault Refusal :=
  runCycle (encode (.subnReg x y)) (handleSubnReg x y) s

end Sys2Proof.Machine
end

