-- ==== Sys2Proof/Machine/Screen.lean ====
section
/-! DEFINITION. The display instructions CLS and DRW (spec/45_display.md). -/

namespace Sys2Proof.Machine

/-- CLS (R261): every pixel 0; neither VF nor REDRAW is written. -/
def handleCls (s : State) : Handled := .done { s with disp := Display.blank }

/-- The grid and the collision bit after XORing the n sprite bytes at I onto the grid at column V[x], row V[y] (R262). -/
def State.sprite (s : State) (x y n : Nibble) : Display × Bool :=
  Display.xorSprite (s.disp, false) (s.reg y).toNat (s.reg x).toNat (s.bytesAt s.i.toNat n.toNat)

/-- DRW Vx, Vy, n (R262): the address check first; coordinates and I are read before VF is written. -/
def handleDrw (x y n : Nibble) (s : State) : Handled :=
  withRange s.i.toNat n.toNat <|
    .done { s.setReg regF (collisionFlag (s.sprite x y n).2) with disp := (s.sprite x y n).1, redraw := true }

def execCls (ign : Nibble) (s : State) : Host.Outcome State Fault Refusal := runCycle (encode (.cls ign)) handleCls s

def execDrw (x y n : Nibble) (s : State) : Host.Outcome State Fault Refusal :=
  runCycle (encode (.drw x y n)) (handleDrw x y n) s

end Sys2Proof.Machine
end

