-- ==== Sys2Proof/Machine/Skip.lean ====
section
/-! DEFINITION. The conditional skips SE and SNE (spec/42_conditional_skip.md). A skip adds 2 to the advanced PC (R180). -/

namespace Sys2Proof.Machine

/-- SE Vx, kk (R181). -/
def handleSeImm (x : Nibble) (kk : Byte) (s : State) : Handled := .done (s.skipIf (s.reg x == kk))

/-- SNE Vx, kk (R182). -/
def handleSneImm (x : Nibble) (kk : Byte) (s : State) : Handled := .done (s.skipIf (s.reg x != kk))

/-- SE Vx, Vy (R183). -/
def handleSeReg (x y : Nibble) (s : State) : Handled := .done (s.skipIf (s.reg x == s.reg y))

/-- SNE Vx, Vy (R184): the second register is the one SNE_REG_Y_FIELD names. -/
def handleSneReg (x y n : Nibble) (s : State) : Handled :=
  .done (s.skipIf (s.reg x != s.reg (s.sneOperand x y n)))

def execSeImm (x : Nibble) (kk : Byte) (s : State) : Host.Outcome State Fault Refusal :=
  runCycle (encode (.seImm x kk)) (handleSeImm x kk) s

def execSneImm (x : Nibble) (kk : Byte) (s : State) : Host.Outcome State Fault Refusal :=
  runCycle (encode (.sneImm x kk)) (handleSneImm x kk) s

def execSeReg (x y n : Nibble) (s : State) : Host.Outcome State Fault Refusal :=
  runCycle (encode (.seReg x y n)) (handleSeReg x y) s

def execSneReg (x y n : Nibble) (s : State) : Host.Outcome State Fault Refusal :=
  runCycle (encode (.sneReg x y n)) (handleSneReg x y n) s

end Sys2Proof.Machine
end

