-- ==== Sys2Proof/Machine/Cycle.lean ====
section
/-! DEFINITION. The Cycle operation (spec/40_engine_cycle.md R120–R125). -/

namespace Sys2Proof.Machine

/-- A Cycle in Running: fetch, decode, execute one handler if found, step the timers (R120, R125). A fetch fault records no
word (spec/60_exceptions.md R342). -/
def runningCycle (s : State) : Host.Outcome State Fault Refusal :=
  match s.fetch with
  | none => .next (takeFault s .fetchOutOfRange none s.pc.toNat)
  | some w =>
    match decode w with
    | .handler i => exec i s
    | .noHandler _ => .next (noHandlerCycle s)

/-- Cycle(): held while awaiting a key, with no change (R122); refused while faulted (R123).
DESIGN CHOICE (log entry 5), safe: Held is a next state equal to the state, Refused(Faulted) is a refusal. -/
def cycle (s : State) : Host.Outcome State Fault Refusal :=
  match s.mode with
  | .faulted => .refused .engineFaulted
  | .awaitingKey => .next s
  | .running => runningCycle s

end Sys2Proof.Machine
end

