-- ==== Sys2Proof/Machine/Step.lean ====
section
/-! DEFINITION. The machine's step is the Cycle operation. -/

namespace Sys2Proof.Machine

/-- One step is one Cycle (spec/40_engine_cycle.md R120). -/
def step (s : State) : Host.Outcome State Fault Refusal := cycle s

/-- `s` with the instruction of these table bits stored where the next step fetches, high byte first (spec/20_memory.md R67).
It stands for the host's Load (log entry 10). -/
def State.withFetchWord (s : State) (nbits w : Nat) : State := s.readyToFetch.placeWord (tableWord nbits w)

end Sys2Proof.Machine
end

