-- ==== Sys2Proof/Machine/HostOps.lean ====
section
/-! DEFINITION. The host's operations (spec/40_engine_cycle.md R126, R130–R139; spec/70_reset_and_hazards.md R370). Each is one
atomic step between cycles and answers a reply and the state after it. -/

namespace Sys2Proof.Machine

/-- Why an operation is refused. R123 names the first; the others are conditions of R133 and R138 that the spec gives no name.
DESIGN CHOICE (log entry 11), safe for programs. -/
inductive RefusedBecause where
  | faulted
  | keyOutOfRange
  | addressOutOfRange
  deriving DecidableEq, Repr

/-- What ReadRegisters returns (R137): not STACK. -/
structure RegisterView where
  v  : Vector Byte 16
  i  : Word
  pc : Word
  sp : Byte
  dt : Byte
  st : Byte
  deriving DecidableEq, Repr

/-- What ReadStatus returns (R139). -/
structure StatusView where
  redraw  : Bool
  sound   : Bool
  keywait : Bool
  mode    : Mode
  fault   : Option FaultRecord
  deriving DecidableEq, Repr

/-- The host operations of R126. -/
inductive HostOp where
  | create (cfg : Config) (rng : Nat)
  | load (image : List Byte)
  | cycle
  | keyChange (k : Nat) (pressed : Bool)
  | clearRedraw
  | clearSound
  | readDisplay
  | readRegisters
  | readMemory (addr len : Nat)
  | readKeypad
  | readStatus
  deriving DecidableEq, Repr

/-- The outcomes of R126: Ok with its result, Err(SizeError), Held, Refused, Faulted. -/
inductive Reply where
  | ok
  | okDisplay (d : Display)
  | okRegisters (r : RegisterView)
  | okMemory (bytes : List Byte)
  | okKeypad (keys : Vector Bool 16)
  | okStatus (st : StatusView)
  | sizeError
  | heldAwaitingKey
  | refused (why : RefusedBecause)
  | faulted (cause : Cause)
  /-- The model's own stop (`Fault`), which no run reaches. -/
  | stopped (f : Fault)
  deriving DecidableEq, Repr

/-- Load(image) (R130–R132): refused when Faulted; SizeError above 3584 bytes; else the image from 0x200 up. -/
def loadImage (image : List Byte) (s : State) : Reply × State :=
  if s.mode = .faulted then (.refused .faulted, s)
  else if image.length > progMax then (.sizeError, s)
  else (.ok, s.setBytes progBase image)

/-- KEY[k] <- pressed. -/
def State.setKey (s : State) (k : Nat) (pressed : Bool) (h : k < 16) : State := { s with key := s.key.set k pressed h }

/-- Key-press completion (R134): V[WAIT_X] <- k, KEYWAIT <- 0, MODE <- Running, and nothing else. -/
def State.completeKeyWait (s : State) (k : Nat) : State :=
  { s.setReg s.waitX (BitVec.ofNat 8 k) with keywait := false, mode := .running }

/-- KeyChange(k, pressed) (R133): refused for k > 15 or when Faulted; a press of a released key completes a wait (R134). -/
def keyChange (k : Nat) (pressed : Bool) (s : State) : Reply × State :=
  if s.mode = .faulted then (.refused .faulted, s)
  else if h : k < 16 then
    if s.mode = .awaitingKey ∧ pressed = true ∧ s.key[k] = false then
      (.ok, (s.setKey k pressed h).completeKeyWait k)
    else (.ok, s.setKey k pressed h)
  else (.refused .keyOutOfRange, s)

/-- ReadMemory(addr, len) (R138): refused past 0xFFF, compared as exact integers (log entry 12). -/
def readMemory (addr len : Nat) (s : State) : Reply × State :=
  if addr + len ≤ memSize then (.okMemory (s.bytesAt addr len), s) else (.refused .addressOutOfRange, s)

/-- What the host's Cycle returns for a step's outcome (R120–R125): a cycle that raised leaves MODE = Faulted. -/
def cycleReply (s : State) : Reply × State :=
  match step s with
  | .refused _ => (.refused .faulted, s)
  | .fault f => (.stopped f, s)
  | .next t =>
    match s.mode, t.fault with
    | .awaitingKey, _ => (.heldAwaitingKey, t)
    | _, some r => if t.mode = .faulted then (.faulted r.cause, t) else (.ok, t)
    | _, none => (.ok, t)

/-- One host operation. -/
def perform (op : HostOp) (s : State) : Reply × State :=
  match op with
  | .create cfg rng => (.ok, State.create cfg rng)
  | .load image => loadImage image s
  | .cycle => cycleReply s
  | .keyChange k pressed => keyChange k pressed s
  | .clearRedraw => (.ok, { s with redraw := false })
  | .clearSound => (.ok, { s with sound := false })
  | .readDisplay => (.okDisplay s.disp, s)
  | .readRegisters => (.okRegisters { v := s.v, i := s.i, pc := s.pc, sp := s.sp, dt := s.dt, st := s.st }, s)
  | .readMemory addr len => readMemory addr len s
  | .readKeypad => (.okKeypad s.key, s)
  | .readStatus =>
    (.okStatus { redraw := s.redraw, sound := s.sound, keywait := s.keywait, mode := s.mode, fault := s.fault }, s)

end Sys2Proof.Machine
end

