-- ==== Sys2Proof/Safety.lean ====
section
/-! DEFINITION. The terms statements use: the invariant of reachable states, what a cycle leaves unchanged, when an instruction
raises a fault, which pixels a sprite covers. -/

namespace Sys2Proof.Machine

/-! ## Reachable states and their invariant -/

/-- The states the host can bring the machine to: Create, then any operations (spec/40_engine_cycle.md R126). -/
inductive Reachable : State → Prop where
  | create (cfg : Config) (rng : Nat) : Reachable (State.create cfg rng)
  | op {s : State} (h : Reachable s) (o : HostOp) : Reachable (perform o s).2

/-- The invariant of reachable states: those of spec/10_state.md R44 that the types do not give, the bound on PC (R27), the
return addresses (spec/41_control_flow.md R162), the fault record (spec/60_exceptions.md R342), and MEM's canonical form. -/
structure State.Inv (s : State) : Prop where
  memory  : Memory.wf s.cfg s.mem = true
  stack   : s.sp.toNat ≤ 16
  waiting : s.mode = .awaitingKey ↔ s.keywait = true
  faulted : s.mode = .faulted ↔ s.fault ≠ none
  record  : ∀ r, s.fault = some r → r.pc = s.pc ∧ (r.word = none ↔ r.cause = .fetchOutOfRange)
  pc      : s.pc.toNat ≤ 0x10FE
  slots   : ∀ j w, j < s.sp.toNat → s.slot? j = some w → 0x002 ≤ w.toNat ∧ w.toNat ≤ 0x1000

/-! ## What stays as it was -/

/-- V[x] as a number. -/
def State.val (s : State) (x : Nibble) : Nat := (s.reg x).toNat

/-- Every general register outside `ws` is unchanged. -/
def SameRegsExcept (ws : List Nibble) (s t : State) : Prop := ∀ r, r ∉ ws → t.reg r = s.reg r

/-- Every byte of memory reads as before, outside the addresses of `written`. -/
def SameMemoryOutside (written : Nat → Prop) (s t : State) : Prop := ∀ a, ¬ written a → t.byteAt a = s.byteAt a

/-- Every byte of memory reads as before. -/
def SameMemory (s t : State) : Prop := ∀ a, t.byteAt a = s.byteAt a

/-- SP and every slot of STACK are unchanged. -/
def SameStack (s t : State) : Prop := t.sp = s.sp ∧ ∀ j, t.slot? j = s.slot? j

/-- Every pixel and REDRAW are unchanged. -/
def SameDisplay (s t : State) : Prop := (∀ r c, t.disp.pixel r c = s.disp.pixel r c) ∧ t.redraw = s.redraw

/-- MODE, KEYWAIT, WAIT_X and FAULT are unchanged. -/
def SameEngine (s t : State) : Prop :=
  t.mode = s.mode ∧ t.keywait = s.keywait ∧ t.waitX = s.waitX ∧ t.fault = s.fault

/-- What only the host writes: KEY and the configuration. -/
def SameHostSide (s t : State) : Prop := t.key = s.key ∧ t.cfg = s.cfg

/-- The timer step ran on the timers of `s` (spec/40_engine_cycle.md R124). -/
def TimersRan (s t : State) : Prop :=
  t.dt.toNat = s.dt.toNat - 1 ∧ t.st.toNat = s.st.toNat - 1 ∧
    t.sound = (if s.st.toNat = 0 then s.sound else true)

/-- Everything but V, I, PC and the timers is unchanged. -/
def SameRest (s t : State) : Prop :=
  SameMemory s t ∧ SameStack s t ∧ SameDisplay s t ∧ SameEngine s t ∧ SameHostSide s t ∧ t.draws = s.draws

/-- The frame of a register instruction: only the registers `ws` change, PC advances by 2, the timers step. -/
def OnlyRegs (ws : List Nibble) (s t : State) : Prop :=
  SameRegsExcept ws s t ∧ t.i = s.i ∧ t.pc = s.pc + 2#16 ∧ TimersRan s t ∧ SameRest s t

/-- The frame of a jump or a skip: only PC changes, and the timers step. -/
def OnlyPc (s t : State) : Prop := SameRegsExcept [] s t ∧ t.i = s.i ∧ TimersRan s t ∧ SameRest s t

/-- The frame of an instruction that writes I: PC advances by 2, the timers step. -/
def OnlyIndex (s t : State) : Prop := SameRegsExcept [] s t ∧ t.pc = s.pc + 2#16 ∧ TimersRan s t ∧ SameRest s t

/-! ## Faults (spec/60_exceptions.md R340, R342) -/

/-- The state a raised fault leaves: the state `s` the cycle began in, but MODE and FAULT. -/
def faultedState (s : State) (cause : Cause) (word : Option Word) (info : Nat) : State :=
  { s with mode := .faulted, fault := some ⟨cause, s.pc, word, info⟩ }

/-- `a` is the lowest address above 0xFFF of the `len` bytes from `base`. -/
def FirstOutside (base len a : Nat) : Prop :=
  base ≤ a ∧ a < base + len ∧ 0xFFF < a ∧ ∀ b, base ≤ b → b < a → b ≤ 0xFFF

/-- The table of R340, for the faults a handler raises: which instruction, on which condition, with which info. -/
def FaultCondition (i : Instr) (s : State) (cause : Cause) (info : Nat) : Prop :=
  match i with
  | .call _ => cause = .stackOverflow ∧ s.sp.toNat = 16 ∧ info = s.sp.toNat
  | .ret _ => cause = .stackUnderflow ∧ s.sp.toNat = 0 ∧ info = s.sp.toNat
  | .skp x | .sknp x => cause = .keyIndexOutOfRange ∧ 15 < s.val x ∧ info = s.val x
  | .drw _ _ n => cause = .dataOutOfRange ∧ FirstOutside s.i.toNat n.toNat info
  | .ldB _ => cause = .dataOutOfRange ∧ FirstOutside s.i.toNat 3 info
  | .storeRegs x | .loadRegs x => cause = .dataOutOfRange ∧ FirstOutside s.i.toNat (x.toNat + 1) info
  | .cls _ | .sys _ | .jp _ | .seImm _ _ | .sneImm _ _ | .seReg _ _ _ | .ldImm _ _ | .addImm _ _ | .ldReg _ _
  | .orReg _ _ | .andReg _ _ | .xorReg _ _ | .addReg _ _ | .subReg _ _ | .shr _ _ | .subnReg _ _ | .shl _ _
  | .sneReg _ _ _ | .ldI _ | .jpV0 _ | .rnd _ _ | .ldVxDt _ | .ldVxK _ | .ldDtVx _ | .ldStVx _ | .addI _
  | .ldF _ => False

/-! ## Sprites (spec/45_display.md R260, R262) -/

/-- DRW covers the pixel at row `r`, column `c`: some set bit of some sprite byte lands there. -/
def SpriteCovers (s : State) (x y n : Nibble) (r c : Nat) : Prop :=
  ∃ j k, j < n.toNat ∧ k < 8 ∧ (s.val y + j) % 32 = r ∧ (s.val x + k) % 64 = c ∧
    (s.byteAt (s.i.toNat + j)).getLsbD (7 - k) = true

/-! ## Observational equality, for what no operation can see -/

/-- `t` differs from `s` at most in stack slots at or above SP (spec/10_state.md R31). -/
def SameButDeadSlots (s t : State) : Prop :=
  { t with stack := s.stack } = s ∧ ∀ j, j < s.sp.toNat → t.slot? j = s.slot? j

/-- `t` differs from `s` at most in ST and SOUND. -/
def SameButSoundTimer (s t : State) : Prop := { t with st := s.st, sound := s.sound } = s

end Sys2Proof.Machine
end

