-- ==== Sys2Proof/Certificates/Slice0/Obligations.lean ====
section
/-! DEFINITION. The statements for the provers. Each docstring names the rule of spec/ it formalises. `exec i s` is the whole cycle
that executes i, begun in s (log entry 7), so a statement about exec also says that PC advances and the timers step. Where a rule
carries one of the spec's own decisions, the docstring names it (D<n> of spec/92_eei_decisions.md); the encodings of the
instruction rules are the spec's general-knowledge ones (log entry 15). -/

open Sys2Proof Sys2Proof.Machine

/-! ## Encoding -/

/-- One word of each family, written out from the encodings of spec/30_encoding.md R94–R99, decodes to its instruction. -/
def Obligations.SampleWordsDecodeAsWritten : Prop :=
  decode 0x2210#16 = .handler (.call 0x210#12) ∧ decode 0x9125#16 = .handler (.sneReg 1#4 2#4 5#4) ∧
  decode 0x8017#16 = .handler (.subnReg 0#4 1#4) ∧ decode 0x810E#16 = .handler (.shl 1#4 0#4) ∧
  decode 0xD015#16 = .handler (.drw 0#4 1#4 5#4) ∧ decode 0xE2A1#16 = .handler (.sknp 2#4) ∧
  decode 0xF265#16 = .handler (.loadRegs 2#4) ∧ decode 0x8128#16 = .noHandler 0x8128#16

/-- Decoding the encoding of a well-formed instruction gives it back, with every operand (R91, R93). -/
def Obligations.DecodeOfEncodeIsTheInstruction : Prop :=
  ∀ i : Instr, i.wellFormed = true → decode (encode i) = .handler i

/-- A word that decodes to an instruction is that instruction's encoding, and the instruction is well-formed (R93). -/
def Obligations.EncodeOfDecodeIsTheWord : Prop :=
  ∀ (w : Word) (i : Instr), decode w = .handler i → encode i = w ∧ i.wellFormed = true

/-- R100, R125: the words with no handler are exactly those listed; a cycle that fetches one advances PC by 2 and runs its timer
step, and changes nothing else. -/
def Obligations.NoHandlerWordsAreNoOps : Prop :=
  (∀ w : Word, decode w = .noHandler w ↔
    (w.toNat / 4096 = 0x8 ∧ w.toNat % 16 ∈ [0x8, 0x9, 0xA, 0xB, 0xC, 0xD, 0xF]) ∨
    (w.toNat / 4096 = 0xE ∧ w.toNat % 256 ∉ [0x9E, 0xA1]) ∨
    (w.toNat / 4096 = 0xF ∧ w.toNat % 256 ∉ [0x07, 0x0A, 0x15, 0x18, 0x1E, 0x29, 0x33, 0x55, 0x65])) ∧
  (∀ (s : State) (w : Word), s.mode = .running → s.pc.toNat + 1 ≤ 0xFFF →
    decode (s.byteAt s.pc.toNat ++ s.byteAt (s.pc.toNat + 1)) = .noHandler w →
    ∃ t, step s = .next t ∧ (perform .cycle s).1 = .ok ∧ OnlyRegs [] s t)

/-- spec/opcode_table.json: a word decodes to an instruction of a row only if it has the row's fixed bits, and a word with the
fixed bits of a row other than SYS's decodes to an instruction of that row. -/
def Obligations.DecodeAgreesWithTheOpcodeTable : Prop :=
  (∀ (w : Word) (i : Instr), decode w = .handler i → w &&& i.row.mask = i.row.pattern) ∧
  (∀ (w : Word) (i : Instr), w &&& i.row.mask = i.row.pattern → i.row.mnemonic ≠ "SYS_nnn" →
    ∃ j, decode w = .handler j ∧ j.row = i.row)

/-- R95: for a top nibble outside 0, 8, E, F the handler does not depend on w[7:0]; op 5 is SE Vx, Vy and op 9 is SNE Vx, Vy for
every n. -/
def Obligations.HandlerIsIndependentOfTheLowByte : Prop :=
  (∀ w w' : Word, w.toNat / 256 = w'.toNat / 256 → w.toNat / 4096 ∉ [0x0, 0x8, 0xE, 0xF] →
    ∃ i i', decode w = .handler i ∧ decode w' = .handler i' ∧ i.row = i'.row) ∧
  (∀ x y n : Nibble, decode (0x5#4 ++ x ++ y ++ n) = .handler (.seReg x y n) ∧
    decode (0x9#4 ++ x ++ y ++ n) = .handler (.sneReg x y n))

/-! ## The step -/

/-- R67, R71, R120: in Running, at any PC with PC + 1 ≤ 0xFFF, even or odd, the word is the byte at PC (high) and the byte at PC + 1
(low); if it decodes to an instruction, the step is exec of that instruction at that state (exec advances PC and steps the
timers). -/
def Obligations.StepRunsTheDecodedInstruction : Prop :=
  ∀ (s : State) (i : Instr), s.mode = .running → s.pc.toNat + 1 ≤ 0xFFF →
    decode (s.byteAt s.pc.toNat ++ s.byteAt (s.pc.toNat + 1)) = .handler i → step s = exec i s

/-- withFetchWord places an instruction so that the next step runs exactly it (the model's own operation, log entry 10). -/
def Obligations.FetchWordIsRunNext : Prop :=
  ∀ (s : State) (w : Nat) (i : Instr), decode (BitVec.ofNat 16 w) = .handler i →
    step (s.withFetchWord 16 w) = exec i (s.withFetchWord 16 w)

/-- R67, R340, R342: a fetch with PC + 1 > 0xFFF raises FetchOutOfRange; the record holds PC as pc and as info, and no word. -/
def Obligations.FetchPastTheTopFaults : Prop :=
  ∀ s : State, s.mode = .running → s.pc.toNat + 1 > 0xFFF →
    step s = .next (faultedState s .fetchOutOfRange none s.pc.toNat) ∧
    (perform .cycle s).1 = .faulted .fetchOutOfRange

/-- The step outside Running, by the model's choice of outcomes (log entry 5): a refusal in Faulted (R123), the state itself while
awaiting a key (R122). -/
def Obligations.StepOutsideRunning : Prop :=
  ∀ s : State, (s.mode = .faulted → step s = .refused .engineFaulted) ∧ (s.mode = .awaitingKey → step s = .next s)

/-- R122 (D14): a Cycle requested while awaiting a key is held and changes nothing, and only a press of a released key lifts the hold
(Create, which discards the state, apart). -/
def Obligations.AwaitingKeyHoldsUntilAPress : Prop :=
  ∀ s : State, s.mode = .awaitingKey →
    perform .cycle s = (.heldAwaitingKey, s) ∧
    ∀ op, (∀ cfg rng, op ≠ .create cfg rng) → (perform op s).2.mode ≠ .awaitingKey →
      ∃ k, op = .keyChange k true ∧ s.key[k]? = some false ∧ (perform op s).2.mode = .running

/-! ## Control flow -/

/-- R161: SYS nnn does nothing. -/
def Obligations.SysOnlyAdvancesPc : Prop :=
  ∀ (nnn : Addr12) (s : State),
    (nnn.toNat % 256 ≠ 0xE0 → nnn.toNat % 256 ≠ 0xEE → decode (0x0#4 ++ nnn) = .handler (.sys nnn)) ∧
    ∃ t, exec (.sys nnn) s = .next t ∧ OnlyRegs [] s t

/-- R162: RET raises StackUnderflow at SP = 0; else SP <- SP - 1, PC <- STACK[SP], the slot not cleared. In a reachable state the
popped value is in 0x002–0x1000. A target above 0xFFE faults at the next fetch. (D3, D4.) -/
def Obligations.RetPopsOrUnderflows : Prop :=
  ∀ (ign : Nibble) (s : State),
    decode (0x0#4 ++ ign ++ 0xEE#8) = .handler (.ret ign) ∧
    (s.sp.toNat = 0 →
      exec (.ret ign) s = .next (faultedState s .stackUnderflow (some (0x0#4 ++ ign ++ 0xEE#8)) 0)) ∧
    (0 < s.sp.toNat → s.sp.toNat ≤ 16 →
      ∃ t, exec (.ret ign) s = .next t ∧ t.sp.toNat = s.sp.toNat - 1 ∧ s.slot? (s.sp.toNat - 1) = some t.pc ∧
        (∀ j, t.slot? j = s.slot? j) ∧ (s.Inv → 0x002 ≤ t.pc.toNat ∧ t.pc.toNat ≤ 0x1000) ∧
        SameRegsExcept [] s t ∧ t.i = s.i ∧ TimersRan s t ∧ SameMemory s t ∧ SameDisplay s t ∧ SameEngine s t ∧
        SameHostSide s t ∧ t.draws = s.draws ∧
        (s.mode = .running → t.pc.toNat > 0xFFE → step t = .next (faultedState t .fetchOutOfRange none t.pc.toNat)))

/-- R163: JP nnn sets PC to nnn; with nnn = 0xFFF the next fetch faults. -/
def Obligations.JpSetsPc : Prop :=
  ∀ (nnn : Addr12) (s : State),
    decode (0x1#4 ++ nnn) = .handler (.jp nnn) ∧
    ∃ t, exec (.jp nnn) s = .next t ∧ t.pc.toNat = nnn.toNat ∧ OnlyPc s t ∧
      (s.mode = .running → nnn.toNat = 0xFFF → step t = .next (faultedState t .fetchOutOfRange none 0xFFF))

/-- R164: CALL raises StackOverflow at SP = 16; else it pushes the address of the CALL plus 2, SP <- SP + 1, PC <- nnn.
(D3, D4.) -/
def Obligations.CallPushesOrOverflows : Prop :=
  ∀ (nnn : Addr12) (s : State),
    decode (0x2#4 ++ nnn) = .handler (.call nnn) ∧
    (s.sp.toNat = 16 → exec (.call nnn) s = .next (faultedState s .stackOverflow (some (0x2#4 ++ nnn)) 16)) ∧
    (s.sp.toNat < 16 →
      ∃ t, exec (.call nnn) s = .next t ∧ t.sp.toNat = s.sp.toNat + 1 ∧ t.pc.toNat = nnn.toNat ∧
        t.slot? s.sp.toNat = some (s.pc + 2#16) ∧ (∀ j, j ≠ s.sp.toNat → t.slot? j = s.slot? j) ∧
        SameRegsExcept [] s t ∧ t.i = s.i ∧ TimersRan s t ∧ SameMemory s t ∧ SameDisplay s t ∧ SameEngine s t ∧
        SameHostSide s t ∧ t.draws = s.draws)

/-- R165 (D20): JP V0, nnn sets PC to nnn + V0, not masked to 12 bits; a target above 0xFFE faults at the next fetch. -/
def Obligations.JpV0AddsV0 : Prop :=
  ∀ (nnn : Addr12) (s : State),
    decode (0xB#4 ++ nnn) = .handler (.jpV0 nnn) ∧
    ∃ t, exec (.jpV0 nnn) s = .next t ∧ t.pc.toNat = nnn.toNat + s.val 0#4 ∧ OnlyPc s t ∧
      (s.mode = .running → t.pc.toNat > 0xFFE → step t = .next (faultedState t .fetchOutOfRange none t.pc.toNat))

/-! ## Conditional skips -/

/-- R181, R182: SE Vx, kk skips when the register equals the immediate, SNE Vx, kk when it does not; a skip is 2 more. -/
def Obligations.ImmediateSkips : Prop :=
  ∀ (x : Nibble) (kk : Byte) (s : State),
    decode (0x3#4 ++ x ++ kk) = .handler (.seImm x kk) ∧ decode (0x4#4 ++ x ++ kk) = .handler (.sneImm x kk) ∧
    (∃ t, exec (.seImm x kk) s = .next t ∧
      t.pc = (if s.val x = kk.toNat then s.pc + 4#16 else s.pc + 2#16) ∧ OnlyPc s t) ∧
    (∃ t, exec (.sneImm x kk) s = .next t ∧
      t.pc = (if s.val x = kk.toNat then s.pc + 2#16 else s.pc + 4#16) ∧ OnlyPc s t)

/-- R183, R184: SE Vx, Vy skips when the registers are equal, whatever n; SNE Vx, Vy skips when V[x] differs from the register that
SNE_REG_Y_FIELD names. -/
def Obligations.RegisterSkips : Prop :=
  ∀ (x y n : Nibble) (s : State),
    decode (0x5#4 ++ x ++ y ++ n) = .handler (.seReg x y n) ∧
    decode (0x9#4 ++ x ++ y ++ n) = .handler (.sneReg x y n) ∧
    (∃ t, exec (.seReg x y n) s = .next t ∧
      t.pc = (if s.val x = s.val y then s.pc + 4#16 else s.pc + 2#16) ∧ OnlyPc s t) ∧
    (∃ t, exec (.sneReg x y n) s = .next t ∧ OnlyPc s t ∧
      (s.cfg.sneField = .y → t.pc = if s.val x = s.val y then s.pc + 2#16 else s.pc + 4#16) ∧
      (s.cfg.sneField = .x → t.pc = s.pc + 2#16) ∧
      (s.cfg.sneField = .n → t.pc = if s.val x = s.val n then s.pc + 2#16 else s.pc + 4#16))

/-! ## Loads and arithmetic -/

/-- R201, R202, R203: LD Vx, kk; ADD Vx, kk, mod 256 and without a flag (D17); LD Vx, Vy. VF changes only as
the destination. -/
def Obligations.LoadsAndImmediateAdd : Prop :=
  ∀ (x y : Nibble) (kk : Byte) (s : State),
    decode (0x6#4 ++ x ++ kk) = .handler (.ldImm x kk) ∧ decode (0x7#4 ++ x ++ kk) = .handler (.addImm x kk) ∧
    decode (0x8#4 ++ x ++ y ++ 0x0#4) = .handler (.ldReg x y) ∧
    (∃ t, exec (.ldImm x kk) s = .next t ∧ t.val x = kk.toNat ∧ OnlyRegs [x] s t) ∧
    (∃ t, exec (.addImm x kk) s = .next t ∧ t.val x = (s.val x + kk.toNat) % 256 ∧ OnlyRegs [x] s t) ∧
    (∃ t, exec (.ldReg x y) s = .next t ∧ t.val x = s.val y ∧ OnlyRegs [x] s t)

/-- R204: ADD Vx, Vy; VF is 1 when the exact sum exceeds 255; with x = F the result wins over the flag (D6). -/
def Obligations.AddRegistersWithCarry : Prop :=
  ∀ (x y : Nibble) (s : State),
    decode (0x8#4 ++ x ++ y ++ 0x4#4) = .handler (.addReg x y) ∧
    ∃ t, exec (.addReg x y) s = .next t ∧ t.val x = (s.val x + s.val y) % 256 ∧
      (x ≠ 0xF#4 → t.val 0xF#4 = if s.val x + s.val y > 255 then 1 else 0) ∧ OnlyRegs [x, 0xF#4] s t

/-- R205, R206: SUB is Vx − Vy and SUBN is Vy − Vx, mod 256; VF is 1 when there is no borrow (minuend ≥ subtrahend); with x = F the
difference wins over the flag. -/
def Obligations.SubtractionsWithNotBorrow : Prop :=
  ∀ (x y : Nibble) (s : State),
    decode (0x8#4 ++ x ++ y ++ 0x5#4) = .handler (.subReg x y) ∧
    decode (0x8#4 ++ x ++ y ++ 0x7#4) = .handler (.subnReg x y) ∧
    (∃ t, exec (.subReg x y) s = .next t ∧ (t.val x : Int) = ((s.val x : Int) - s.val y) % 256 ∧
      (x ≠ 0xF#4 → t.val 0xF#4 = if s.val x ≥ s.val y then 1 else 0) ∧ OnlyRegs [x, 0xF#4] s t) ∧
    (∃ t, exec (.subnReg x y) s = .next t ∧ (t.val x : Int) = ((s.val y : Int) - s.val x) % 256 ∧
      (x ≠ 0xF#4 → t.val 0xF#4 = if s.val y ≥ s.val x then 1 else 0) ∧ OnlyRegs [x, 0xF#4] s t)

/-! ## Bitwise, shift, random -/

/-- R231, R232, R233: OR, AND and XOR combine the registers bit by bit; VF is not written unless x = F. -/
def Obligations.BitwiseCombinations : Prop :=
  ∀ (x y : Nibble) (s : State),
    decode (0x8#4 ++ x ++ y ++ 0x1#4) = .handler (.orReg x y) ∧
    decode (0x8#4 ++ x ++ y ++ 0x2#4) = .handler (.andReg x y) ∧
    decode (0x8#4 ++ x ++ y ++ 0x3#4) = .handler (.xorReg x y) ∧
    (∃ t, exec (.orReg x y) s = .next t ∧
      (∀ k, (t.reg x).getLsbD k = ((s.reg x).getLsbD k || (s.reg y).getLsbD k)) ∧ OnlyRegs [x] s t) ∧
    (∃ t, exec (.andReg x y) s = .next t ∧
      (∀ k, (t.reg x).getLsbD k = ((s.reg x).getLsbD k && (s.reg y).getLsbD k)) ∧ OnlyRegs [x] s t) ∧
    (∃ t, exec (.xorReg x y) s = .next t ∧
      (∀ k, (t.reg x).getLsbD k = ((s.reg x).getLsbD k != (s.reg y).getLsbD k)) ∧ OnlyRegs [x] s t)

/-- R234, R235: SHR and SHL shift V[x] or V[y], as SHIFT_SOURCE says, by one; VF is the bit shifted out; with x = F the result wins
over the flag. -/
def Obligations.ShiftsByOne : Prop :=
  ∀ (x y : Nibble) (s : State),
    let src := if s.cfg.shiftSource = .vx then s.val x else s.val y
    decode (0x8#4 ++ x ++ y ++ 0x6#4) = .handler (.shr x y) ∧
    decode (0x8#4 ++ x ++ y ++ 0xE#4) = .handler (.shl x y) ∧
    (∃ t, exec (.shr x y) s = .next t ∧ t.val x = src / 2 ∧ (x ≠ 0xF#4 → t.val 0xF#4 = src % 2) ∧
      OnlyRegs [x, 0xF#4] s t) ∧
    (∃ t, exec (.shl x y) s = .next t ∧ t.val x = src * 2 % 256 ∧ (x ≠ 0xF#4 → t.val 0xF#4 = src / 128) ∧
      OnlyRegs [x, 0xF#4] s t)

/-- R236: RND draws exactly one byte, whatever the mask, and V[x] is that byte AND kk. The byte is a free value and the count of
draws is the model's field (log entry 4): nothing here rests on what the byte is. -/
def Obligations.RndMasksOneDraw : Prop :=
  ∀ (x : Nibble) (kk : Byte) (s : State),
    decode (0xC#4 ++ x ++ kk) = .handler (.rnd x kk) ∧
    ∃ t, exec (.rnd x kk) s = .next t ∧ t.draws = s.draws + 1 ∧
      (∀ k, (t.reg x).getLsbD k = ((Config.freeByte s.draws).getLsbD k && kk.getLsbD k)) ∧
      SameRegsExcept [x] s t ∧ t.i = s.i ∧ t.pc = s.pc + 2#16 ∧ TimersRan s t ∧ SameMemory s t ∧ SameStack s t ∧
      SameDisplay s t ∧ SameEngine s t ∧ SameHostSide s t

/-! ## Display -/

/-- R261: CLS blanks every pixel, whatever w[11:8], and writes neither VF nor REDRAW. -/
def Obligations.ClsBlanksTheDisplay : Prop :=
  ∀ (ign : Nibble) (s : State),
    decode (0x0#4 ++ ign ++ 0xE0#8) = .handler (.cls ign) ∧
    ∃ t, exec (.cls ign) s = .next t ∧ (∀ r c, t.disp.pixel r c = false) ∧ t.redraw = s.redraw ∧
      SameRegsExcept [] s t ∧ t.i = s.i ∧ t.pc = s.pc + 2#16 ∧ TimersRan s t ∧ SameMemory s t ∧ SameStack s t ∧
      SameEngine s t ∧ SameHostSide s t ∧ t.draws = s.draws

/-- R260, R262: DRW inverts exactly the pixels its sprite covers, with wrap-around; VF is 1 if a covered pixel was set, else 0; REDRAW
is set. With an address above 0xFFF it raises DataOutOfRange instead. (D2, D10, D11, D12.) -/
def Obligations.DrwXorsTheSprite : Prop :=
  ∀ (x y n : Nibble) (s : State),
    decode (0xD#4 ++ x ++ y ++ n) = .handler (.drw x y n) ∧
    (n.toNat = 0 ∨ s.i.toNat + n.toNat - 1 ≤ 0xFFF →
      ∃ t, exec (.drw x y n) s = .next t ∧
        (∀ r c, r < 32 → c < 64 → SpriteCovers s x y n r c → t.disp.pixel r c = !s.disp.pixel r c) ∧
        (∀ r c, r < 32 → c < 64 → ¬ SpriteCovers s x y n r c → t.disp.pixel r c = s.disp.pixel r c) ∧
        ((∃ r c, SpriteCovers s x y n r c ∧ s.disp.pixel r c = true) → t.val 0xF#4 = 1) ∧
        ((∀ r c, SpriteCovers s x y n r c → s.disp.pixel r c = false) → t.val 0xF#4 = 0) ∧
        t.redraw = true ∧ SameRegsExcept [0xF#4] s t ∧ t.i = s.i ∧ t.pc = s.pc + 2#16 ∧ TimersRan s t ∧
        SameMemory s t ∧ SameStack s t ∧ SameEngine s t ∧ SameHostSide s t ∧ t.draws = s.draws) ∧
    (0 < n.toNat → s.i.toNat + n.toNat - 1 > 0xFFF →
      exec (.drw x y n) s =
        .next (faultedState s .dataOutOfRange (some (0xD#4 ++ x ++ y ++ n)) (max s.i.toNat 0x1000)))

/-! ## Keypad and timers -/

/-- R281, R282: SKP skips when the key numbered by V[x] is pressed, SKNP when it is not; above 15 both raise KeyIndexOutOfRange
(D16). -/
def Obligations.KeySkips : Prop :=
  ∀ (x : Nibble) (s : State),
    decode (0xE#4 ++ x ++ 0x9E#8) = .handler (.skp x) ∧ decode (0xE#4 ++ x ++ 0xA1#8) = .handler (.sknp x) ∧
    (∀ pressed, s.key[s.val x]? = some pressed →
      (∃ t, exec (.skp x) s = .next t ∧ t.pc = (if pressed then s.pc + 4#16 else s.pc + 2#16) ∧ OnlyPc s t) ∧
      (∃ t, exec (.sknp x) s = .next t ∧ t.pc = (if pressed then s.pc + 2#16 else s.pc + 4#16) ∧ OnlyPc s t)) ∧
    (15 < s.val x →
      exec (.skp x) s = .next (faultedState s .keyIndexOutOfRange (some (0xE#4 ++ x ++ 0x9E#8)) (s.val x)) ∧
      exec (.sknp x) s = .next (faultedState s .keyIndexOutOfRange (some (0xE#4 ++ x ++ 0xA1#8)) (s.val x)))

/-- R283: LD Vx, K latches x, sets KEYWAIT and waits; PC advances and the timers step in its own cycle; no register is written.
Every later Cycle is held, a press of a held key does not complete the wait, and a press of a released key k loads k
into V[x] and resumes. (D14, D15.) -/
def Obligations.KeyWaitEntersAndCompletes : Prop :=
  ∀ (x : Nibble) (s : State),
    decode (0xF#4 ++ x ++ 0x0A#8) = .handler (.ldVxK x) ∧
    ∃ t, exec (.ldVxK x) s = .next t ∧ t.mode = .awaitingKey ∧ t.keywait = true ∧ t.waitX = x ∧ t.fault = s.fault ∧
      OnlyRegs [] s { t with mode := s.mode, keywait := s.keywait, waitX := s.waitX } ∧
      perform .cycle t = (.heldAwaitingKey, t) ∧
      (∀ k, t.key[k]? = some true → (perform (.keyChange k true) t).2.mode = .awaitingKey) ∧
      (∀ k, t.key[k]? = some false →
        let u := (perform (.keyChange k true) t).2
        u.val x = k ∧ u.mode = .running ∧ u.keywait = false ∧ SameRegsExcept [x] t u ∧ u.pc = t.pc)

/-- R284, R285, R286: LD Vx, DT reads DT before the cycle's decrement; LD DT, Vx and LD ST, Vx write a timer that the same cycle's
timer step already counts down, ST setting SOUND when nonzero. -/
def Obligations.TimerTransfers : Prop :=
  ∀ (x : Nibble) (s : State),
    decode (0xF#4 ++ x ++ 0x07#8) = .handler (.ldVxDt x) ∧ decode (0xF#4 ++ x ++ 0x15#8) = .handler (.ldDtVx x) ∧
    decode (0xF#4 ++ x ++ 0x18#8) = .handler (.ldStVx x) ∧
    (∃ t, exec (.ldVxDt x) s = .next t ∧ t.val x = s.dt.toNat ∧ OnlyRegs [x] s t) ∧
    (∃ t, exec (.ldDtVx x) s = .next t ∧ t.dt.toNat = s.val x - 1 ∧
      OnlyRegs [] { s with dt := s.reg x } t) ∧
    (∃ t, exec (.ldStVx x) s = .next t ∧ t.st.toNat = s.val x - 1 ∧
      t.sound = (if s.val x = 0 then s.sound else true) ∧ OnlyRegs [] { s with st := s.reg x } t)

/-! ## Index register and memory transfer -/

/-- R311, R312, R313: LD I, nnn; ADD I, Vx mod 65536 with VF not written (D19); LD F, Vx sets I to V[x] × 5, never masked. -/
def Obligations.IndexRegisterWrites : Prop :=
  ∀ (x : Nibble) (nnn : Addr12) (s : State),
    decode (0xA#4 ++ nnn) = .handler (.ldI nnn) ∧ decode (0xF#4 ++ x ++ 0x1E#8) = .handler (.addI x) ∧
    decode (0xF#4 ++ x ++ 0x29#8) = .handler (.ldF x) ∧
    (∃ t, exec (.ldI nnn) s = .next t ∧ t.i.toNat = nnn.toNat ∧ OnlyIndex s t) ∧
    (∃ t, exec (.addI x) s = .next t ∧ t.i.toNat = (s.i.toNat + s.val x) % 65536 ∧ OnlyIndex s t) ∧
    (∃ t, exec (.ldF x) s = .next t ∧ t.i.toNat = s.val x * 5 ∧ OnlyIndex s t)

/-- R314: LD B, Vx writes hundreds, tens, units at I, I+1, I+2 and no other byte, I not changed; with I + 2 > 0xFFF it raises
DataOutOfRange before any write. -/
def Obligations.BcdStoresThreeDigits : Prop :=
  ∀ (x : Nibble) (s : State),
    decode (0xF#4 ++ x ++ 0x33#8) = .handler (.ldB x) ∧
    (s.i.toNat + 2 ≤ 0xFFF →
      ∃ t, exec (.ldB x) s = .next t ∧
        (t.byteAt s.i.toNat).toNat = s.val x / 100 ∧ (t.byteAt (s.i.toNat + 1)).toNat = s.val x / 10 % 10 ∧
        (t.byteAt (s.i.toNat + 2)).toNat = s.val x % 10 ∧
        SameMemoryOutside (fun a => s.i.toNat ≤ a ∧ a < s.i.toNat + 3) s t ∧
        SameRegsExcept [] s t ∧ t.i = s.i ∧ t.pc = s.pc + 2#16 ∧ TimersRan s t ∧ SameStack s t ∧ SameDisplay s t ∧
        SameEngine s t ∧ SameHostSide s t ∧ t.draws = s.draws) ∧
    (s.i.toNat + 2 > 0xFFF →
      exec (.ldB x) s =
        .next (faultedState s .dataOutOfRange (some (0xF#4 ++ x ++ 0x33#8)) (max s.i.toNat 0x1000)))

/-- R315: LD [I], Vx stores V0 through V[x] at I, I+1, … and no other byte, then adds x + 1 to I mod 65536; with I + x > 0xFFF it
raises DataOutOfRange before any write. -/
def Obligations.BulkStore : Prop :=
  ∀ (x : Nibble) (s : State),
    decode (0xF#4 ++ x ++ 0x55#8) = .handler (.storeRegs x) ∧
    (s.i.toNat + x.toNat ≤ 0xFFF →
      ∃ t, exec (.storeRegs x) s = .next t ∧
        (∀ j : Nibble, j.toNat ≤ x.toNat → t.byteAt (s.i.toNat + j.toNat) = s.reg j) ∧
        SameMemoryOutside (fun a => s.i.toNat ≤ a ∧ a < s.i.toNat + (x.toNat + 1)) s t ∧
        t.i.toNat = (s.i.toNat + x.toNat + 1) % 65536 ∧
        SameRegsExcept [] s t ∧ t.pc = s.pc + 2#16 ∧ TimersRan s t ∧ SameStack s t ∧ SameDisplay s t ∧
        SameEngine s t ∧ SameHostSide s t ∧ t.draws = s.draws) ∧
    (s.i.toNat + x.toNat > 0xFFF →
      exec (.storeRegs x) s =
        .next (faultedState s .dataOutOfRange (some (0xF#4 ++ x ++ 0x55#8)) (max s.i.toNat 0x1000)))

/-- R316: LD Vx, [I] loads V0 through V[x] from I, I+1, …, leaves the other registers and memory, then adds x + 1 to I mod 65536; with
I + x > 0xFFF it raises DataOutOfRange before any write. -/
def Obligations.BulkLoad : Prop :=
  ∀ (x : Nibble) (s : State),
    decode (0xF#4 ++ x ++ 0x65#8) = .handler (.loadRegs x) ∧
    (s.i.toNat + x.toNat ≤ 0xFFF →
      ∃ t, exec (.loadRegs x) s = .next t ∧
        (∀ j : Nibble, j.toNat ≤ x.toNat → t.reg j = s.byteAt (s.i.toNat + j.toNat)) ∧
        (∀ j : Nibble, x.toNat < j.toNat → t.reg j = s.reg j) ∧
        t.i.toNat = (s.i.toNat + x.toNat + 1) % 65536 ∧ t.pc = s.pc + 2#16 ∧ TimersRan s t ∧ SameRest s t) ∧
    (s.i.toNat + x.toNat > 0xFFF →
      exec (.loadRegs x) s =
        .next (faultedState s .dataOutOfRange (some (0xF#4 ++ x ++ 0x65#8)) (max s.i.toNat 0x1000)))

/-- R75, R375: the bytes LD [I], Vx stores at the next instruction's address are the word the next cycle fetches. -/
def Obligations.StoredBytesAreFetchedNext : Prop :=
  ∀ (x j k : Nibble) (s t : State), exec (.storeRegs x) s = .next t → s.i.toNat + x.toNat ≤ 0xFFF →
    j.toNat + 1 = k.toNat → k.toNat ≤ x.toNat → (s.pc + 2#16).toNat = s.i.toNat + j.toNat →
    t.fetch = some (s.reg j ++ s.reg k)

/-! ## Faults -/

/-- R340 (D2, D3, D16): an instruction raises a fault exactly on the condition of the table; the cycle's state is then put back, MODE
becomes Faulted and FAULT records cause, PC, the instruction's word and the info. Otherwise FAULT is unchanged, and MODE is
unchanged or AwaitingKey. The fetch raises FetchOutOfRange when PC + 1 > 0xFFF. The codes are 1 to 5. -/
def Obligations.FaultsAreRaisedAsTabulated : Prop :=
  (∀ (i : Instr) (s : State), s.sp.toNat ≤ 16 →
    (∀ cause info, FaultCondition i s cause info → exec i s = .next (faultedState s cause (some (encode i)) info)) ∧
    ((∀ cause info, ¬ FaultCondition i s cause info) →
      ∃ t, exec i s = .next t ∧ t.fault = s.fault ∧ (t.mode = s.mode ∨ t.mode = .awaitingKey))) ∧
  (∀ s : State, s.mode = .running → s.pc.toNat + 1 > 0xFFF →
    step s = .next (faultedState s .fetchOutOfRange none s.pc.toNat)) ∧
  [Cause.fetchOutOfRange, .dataOutOfRange, .stackOverflow, .stackUnderflow, .keyIndexOutOfRange].map Cause.code =
    [1, 2, 3, 4, 5]

/-- R342 (D23): a fault is precise. If a step in Running ends in Faulted, the state is the one the step began in but MODE and FAULT; FAULT
holds the cause, PC, the word fetched (none if the fetch itself raised) and the info; the Cycle returns Faulted(cause). -/
def Obligations.FaultsArePrecise : Prop :=
  ∀ s t : State, s.mode = .running → step s = .next t → t.mode = .faulted →
    ∃ cause info, t = faultedState s cause s.fetch info ∧ (perform .cycle s).1 = .faulted cause ∧
      (s.fetch = none ↔ cause = .fetchOutOfRange)

/-- R344, R123 (D23): Faulted is absorbing. Cycle, KeyChange and Load are refused with no change; the flag clears and the reads still work,
and leave Faulted and FAULT as they are; only Create leaves it. By the model's choice (log entry 11) the reason of every refusal in
Faulted is faulted, also for KeyChange with k above 15 and for a Load that is too long. -/
def Obligations.FaultedIsAbsorbing : Prop :=
  ∀ s : State, s.mode = .faulted →
    perform .cycle s = (.refused .faulted, s) ∧
    (∀ k pressed, perform (.keyChange k pressed) s = (.refused .faulted, s)) ∧
    (∀ image, perform (.load image) s = (.refused .faulted, s)) ∧
    perform .clearRedraw s = (.ok, { s with redraw := false }) ∧ perform .clearSound s = (.ok, { s with sound := false }) ∧
    perform .readDisplay s = (.okDisplay s.disp, s) ∧ perform .readKeypad s = (.okKeypad s.key, s) ∧
    perform .readRegisters s = (.okRegisters ⟨s.v, s.i, s.pc, s.sp, s.dt, s.st⟩, s) ∧
    (∀ addr len, addr + len ≤ 0x1000 → perform (.readMemory addr len) s = (.okMemory (s.bytesAt addr len), s)) ∧
    perform .readStatus s = (.okStatus ⟨s.redraw, s.sound, s.keywait, .faulted, s.fault⟩, s) ∧
    (∀ op, (∀ cfg rng, op ≠ .create cfg rng) →
      (perform op s).2.mode = .faulted ∧ (perform op s).2.fault = s.fault) ∧
    (∀ cfg rng, (perform (.create cfg rng) s).2.mode = .running)

/-! ## Invariants -/

/-- A new machine meets the invariant, whatever its configuration. -/
def Obligations.CreationMeetsTheInvariant : Prop :=
  (∀ cfg rng, (State.create cfg rng).Inv) ∧ State.reset.Inv

/-- Every step keeps the invariant, from every state that has it. -/
def Obligations.StepKeepsTheInvariant : Prop :=
  ∀ s t : State, s.Inv → step s = .next t → t.Inv

/-- Every host operation keeps the invariant. -/
def Obligations.HostOperationsKeepTheInvariant : Prop :=
  ∀ (s : State) (op : HostOp), s.Inv → (perform op s).2.Inv

/-- R44: the invariants of every reachable state (those on DISP and KEY hold by their types). -/
def Obligations.ReachableStatesMeetR44 : Prop :=
  ∀ s : State, Reachable s →
    (∀ x, s.val x ≤ 255) ∧ s.dt.toNat ≤ 255 ∧ s.st.toNat ≤ 255 ∧ s.sp.toNat ≤ 16 ∧
    (s.mode = .awaitingKey ↔ s.keywait = true) ∧ (s.fault ≠ none ↔ s.mode = .faulted)

/-- The model's own stop (log entry 6) is never reached: a step of a reachable state takes a next state, or is refused because MODE =
Faulted. -/
def Obligations.ReachableStatesNeverStop : Prop :=
  ∀ s : State, Reachable s → (s.mode = .faulted ∧ step s = .refused .engineFaulted) ∨ (∃ t, step s = .next t)

/-! ## Whole-machine rules -/

/-- R62, R69: of all instructions only LD B and LD [I], Vx change a byte of memory, and only at the addresses they store to. -/
def Obligations.MemoryChangesOnlyByStores : Prop :=
  ∀ (i : Instr) (s t : State) (a : Nat), exec i s = .next t → t.byteAt a ≠ s.byteAt a →
    ((∃ x, i = .ldB x) ∧ s.i.toNat ≤ a ∧ a < s.i.toNat + 3 ∨
      ∃ x, i = .storeRegs x ∧ s.i.toNat ≤ a ∧ a ≤ s.i.toNat + x.toNat) ∧ a ≤ 0xFFF

/-- R24, R29, R34, R36: which instructions can change I, STACK or SP, DISP, REDRAW. -/
def Obligations.ComponentsChangeOnlyByTheirInstructions : Prop :=
  ∀ (i : Instr) (s t : State), exec i s = .next t →
    (t.i ≠ s.i → (∃ nnn, i = .ldI nnn) ∨ ∃ x, i = .addI x ∨ i = .ldF x ∨ i = .storeRegs x ∨ i = .loadRegs x) ∧
    (¬ SameStack s t → (∃ nnn, i = .call nnn) ∨ ∃ ign, i = .ret ign) ∧
    (t.disp ≠ s.disp → (∃ ign, i = .cls ign) ∨ ∃ x y n, i = .drw x y n) ∧
    (t.redraw ≠ s.redraw → t.redraw = true ∧ ∃ x y n, i = .drw x y n)

/-- R35, R37, R42: no step writes KEY or the configuration, and none clears REDRAW or SOUND. -/
def Obligations.StepsLeaveTheHostsSide : Prop :=
  ∀ s t : State, step s = .next t →
    t.key = s.key ∧ t.cfg = s.cfg ∧ (s.redraw = true → t.redraw = true) ∧ (s.sound = true → t.sound = true)

/-- R33: no instruction reads ST. Two states that differ only in ST and SOUND step to states that differ only in them. -/
def Obligations.SoundTimerIsNeverRead : Prop :=
  ∀ (s s' t : State), SameButSoundTimer s s' → step s = .next t →
    ∃ t', step s' = .next t' ∧ SameButSoundTimer t t'

/-- R31 (D31): no instruction or host operation can observe a slot at or above SP; a pop does not clear its slot, and a slot changes
only when a CALL pushes to it. Two states that differ
only in such slots answer every operation alike, and the states after it again differ only in such slots. -/
def Obligations.DeadStackSlotsAreInvisible : Prop :=
  (∀ (s s' : State) (op : HostOp), SameButDeadSlots s s' →
    (perform op s).1 = (perform op s').1 ∧ SameButDeadSlots (perform op s).2 (perform op s').2) ∧
  (∀ (ign : Nibble) (s t : State), exec (.ret ign) s = .next t → t.stack = s.stack) ∧
  (∀ (i : Instr) (s t : State) (j : Nat), exec i s = .next t → t.slot? j ≠ s.slot? j →
    (∃ nnn, i = .call nnn) ∧ j = s.sp.toNat)

/-! ## Host operations -/

/-- R130 (D26), R131, R132: Load copies an image of at most 3584 bytes to 0x200 and up and changes nothing else; a longer one is a SizeError
with no change; in Faulted it is refused. That an image too long is refused in Faulted and no SizeError, and the refusal's reason, are
the model's choice (log entry 11). -/
def Obligations.LoadCopiesTheImage : Prop :=
  ∀ (image : List Byte) (s : State),
    (s.mode = .faulted → perform (.load image) s = (.refused .faulted, s)) ∧
    (s.mode ≠ .faulted → image.length > 3584 → perform (.load image) s = (.sizeError, s)) ∧
    (s.mode ≠ .faulted → image.length ≤ 3584 →
      (perform (.load image) s).1 = .ok ∧
      (∀ k b, image[k]? = some b → (perform (.load image) s).2.byteAt (0x200 + k) = b) ∧
      SameMemoryOutside (fun a => 0x200 ≤ a ∧ a < 0x200 + image.length) s (perform (.load image) s).2 ∧
      { (perform (.load image) s).2 with mem := s.mem } = s)

/-- R133, R134 (D15, D30): KeyChange writes KEY[k]; while awaiting a key, a press of a released key writes k to V[WAIT_X], clears KEYWAIT and
resumes, and writes nothing else; a key number above 15, and every KeyChange in Faulted, is refused. -/
def Obligations.KeyChangeWritesKeyAndCompletes : Prop :=
  ∀ (k : Nat) (pressed : Bool) (s : State),
    (s.mode = .faulted ∨ 15 < k → ∃ why, perform (.keyChange k pressed) s = (.refused why, s)) ∧
    (s.mode ≠ .faulted → k ≤ 15 → ∃ t, perform (.keyChange k pressed) s = (.ok, t) ∧
      t.key[k]? = some pressed ∧ (∀ j, j ≠ k → t.key[j]? = s.key[j]?) ∧
      (s.mode = .awaitingKey ∧ pressed = true ∧ s.key[k]? = some false →
        t.val s.waitX = k ∧ SameRegsExcept [s.waitX] s t ∧ t.mode = .running ∧ t.keywait = false ∧
        { t with key := s.key, v := s.v, mode := s.mode, keywait := s.keywait } = s) ∧
      (¬ (s.mode = .awaitingKey ∧ pressed = true ∧ s.key[k]? = some false) → { t with key := s.key } = s))

/-- R135–R139 (D30, D31): the flag clears write their flag alone; the reads return what they name and change nothing; ReadMemory past 0xFFF is
refused. -/
def Obligations.ClearsAndReads : Prop :=
  ∀ s : State,
    (∃ t, perform .clearRedraw s = (.ok, t) ∧ t.redraw = false ∧ { t with redraw := s.redraw } = s) ∧
    (∃ t, perform .clearSound s = (.ok, t) ∧ t.sound = false ∧ { t with sound := s.sound } = s) ∧
    perform .readDisplay s = (.okDisplay s.disp, s) ∧
    perform .readRegisters s = (.okRegisters ⟨s.v, s.i, s.pc, s.sp, s.dt, s.st⟩, s) ∧
    (∀ addr len : Nat, (addr : Int) + len - 1 ≤ 0xFFF → ∃ bytes, perform (.readMemory addr len) s = (.okMemory bytes, s) ∧
      bytes.length = len ∧ ∀ k, k < len → bytes[k]? = some (s.byteAt (addr + k))) ∧
    (∀ addr len : Nat, (addr : Int) + len - 1 > 0xFFF → ∃ why, perform (.readMemory addr len) s = (.refused why, s)) ∧
    perform .readKeypad s = (.okKeypad s.key, s) ∧
    perform .readStatus s = (.okStatus ⟨s.redraw, s.sound, s.keywait, s.mode, s.fault⟩, s)

/-- R20 (D5): the creation value of every component; MEM is FONT at 0x000–0x04F, glyph g at g × 5, and 0x00 elsewhere. Create may be called
in any state. -/
def Obligations.CreationValues : Prop :=
  ∀ (cfg : Config) (rng : Nat) (s : State), ∃ t, perform (.create cfg rng) s = (.ok, t) ∧
    (∀ (g : Fin 16) (j : Fin 5), t.byteAt (g * 5 + j) = cfg.font[g][j]) ∧ (∀ a, 80 ≤ a → t.byteAt a = 0#8) ∧
    (∀ x, t.reg x = 0#8) ∧ t.i = 0#16 ∧ t.pc = 0x200#16 ∧ t.sp = 0#8 ∧ (∀ j, j < 16 → t.slot? j = some 0#16) ∧
    t.dt = 0#8 ∧ t.st = 0#8 ∧ (∀ row col, t.disp.pixel row col = false) ∧ (∀ k, k < 16 → t.key[k]? = some false) ∧
    t.redraw = false ∧ t.sound = false ∧ t.keywait = false ∧ t.mode = .running ∧ t.waitX = 0#4 ∧ t.fault = none ∧
    t.cfg = cfg

/-- R372: without a Load the first 1792 cycles of a new machine execute SYS from 0x200 up, changing nothing but PC, and the 1793rd raises
FetchOutOfRange at PC = 0x1000. -/
def Obligations.UnloadedMachineRunsOffTheEnd : Prop :=
  ∀ (cfg : Config) (rng : Nat),
    (∀ k, k ≤ 1792 → Host.Core.run Sys2Proof.core k (State.create cfg rng) =
      .next { State.create cfg rng with pc := BitVec.ofNat 16 (0x200 + 2 * k) }) ∧
    Host.Core.run Sys2Proof.core 1793 (State.create cfg rng) =
      .next (faultedState { State.create cfg rng with pc := 0x1000#16 } .fetchOutOfRange none 0x1000)

/-- R161, R372: in Running, with PC + 1 ≤ 0xFFF, two zero bytes at PC are the word 0x0000, which is SYS: the step advances PC by 2, runs
the timer step and changes nothing else. -/
def Obligations.ZeroBytesRunAsSys : Prop :=
  ∀ s : State, s.mode = .running → s.pc.toNat + 1 ≤ 0xFFF →
    s.byteAt s.pc.toNat = 0#8 → s.byteAt (s.pc.toNat + 1) = 0#8 → ∃ t, step s = .next t ∧ OnlyRegs [] s t
end

