-- ==== Sys2Proof/Laws/Fields.lean ====
section
/-! SUPPORT. The fields of a word built in each format (spec/30_encoding.md R90, R91). -/

namespace Sys2Proof.Laws

theorem getLsbD_wordA (op : Nibble) (nnn : Addr12) (k : Nat) :
    (wordA op nnn).getLsbD k = if k < 12 then nnn.getLsbD k else op.getLsbD (k - 12) := by
  exact BitVec.getLsbD_append (x := op) (y := nnn) (i := k)

theorem getLsbD_wordXK (op x : Nibble) (kk : Byte) (k : Nat) :
    (wordXK op x kk).getLsbD k =
      if k < 8 then kk.getLsbD k else if k < 12 then x.getLsbD (k - 8) else op.getLsbD (k - 12) := by
  have h : k - 8 - 4 = k - 12 := by omega
  simp only [wordXK, BitVec.getLsbD_append, h]
  by_cases h8 : k < 8
  · simp [h8]
  · by_cases h12 : k < 12
    · simp [h8, h12, show k - 8 < 4 by omega]
    · simp [h8, h12, show ¬ (k - 8 < 4) by omega]

theorem getLsbD_wordXYN (op x y n : Nibble) (k : Nat) :
    (wordXYN op x y n).getLsbD k =
      if k < 4 then n.getLsbD k else if k < 8 then y.getLsbD (k - 4)
      else if k < 12 then x.getLsbD (k - 8) else op.getLsbD (k - 12) := by
  have h1 : k - 4 - 4 = k - 8 := by omega
  have h2 : k - 8 - 4 = k - 12 := by omega
  simp only [wordXYN, BitVec.getLsbD_append, h1, h2]
  by_cases h4 : k < 4
  · simp [h4]
  · by_cases h8 : k < 8
    · simp [h4, h8, show k - 4 < 4 by omega]
    · by_cases h12 : k < 12
      · simp [h4, h8, h12, show ¬ (k - 4 < 4) by omega, show k - 8 < 4 by omega]
      · simp [h4, h8, h12, show ¬ (k - 4 < 4) by omega, show ¬ (k - 8 < 4) by omega]

section
variable (op x y n : Nibble) (kk : Byte) (nnn : Addr12)

@[simp] theorem opField_wordA : opField (wordA op nnn) = op := by
  apply BitVec.eq_of_getLsbD_eq; intro i hi; simp [opField, getLsbD_wordA, hi]
@[simp] theorem nnnField_wordA : nnnField (wordA op nnn) = nnn := by
  apply BitVec.eq_of_getLsbD_eq; intro i hi; simp [nnnField, getLsbD_wordA, hi]
theorem kkField_wordA : kkField (wordA op nnn) = Addr12.low nnn := by
  apply BitVec.eq_of_getLsbD_eq; intro i hi
  simp [kkField, Addr12.low, getLsbD_wordA, hi, show i < 12 by omega]

@[simp] theorem opField_wordXK : opField (wordXK op x kk) = op := by
  apply BitVec.eq_of_getLsbD_eq; intro i hi; simp [opField, getLsbD_wordXK, hi, show ¬ (12 + i < 8) by omega]
@[simp] theorem xField_wordXK : xField (wordXK op x kk) = x := by
  apply BitVec.eq_of_getLsbD_eq; intro i hi
  simp [xField, getLsbD_wordXK, hi, show 8 + i < 12 by omega]
@[simp] theorem kkField_wordXK : kkField (wordXK op x kk) = kk := by
  apply BitVec.eq_of_getLsbD_eq; intro i hi; simp [kkField, getLsbD_wordXK, hi]

@[simp] theorem opField_wordXYN : opField (wordXYN op x y n) = op := by
  apply BitVec.eq_of_getLsbD_eq; intro i hi; simp [opField, getLsbD_wordXYN, hi, show ¬ (12 + i < 4) by omega, show ¬ (12 + i < 8) by omega]
@[simp] theorem xField_wordXYN : xField (wordXYN op x y n) = x := by
  apply BitVec.eq_of_getLsbD_eq; intro i hi
  simp [xField, getLsbD_wordXYN, hi, show ¬ (8 + i < 4) by omega, show 8 + i < 12 by omega]
@[simp] theorem yField_wordXYN : yField (wordXYN op x y n) = y := by
  apply BitVec.eq_of_getLsbD_eq; intro i hi
  simp [yField, getLsbD_wordXYN, hi, show 4 + i < 8 by omega]
@[simp] theorem nField_wordXYN : nField (wordXYN op x y n) = n := by
  apply BitVec.eq_of_getLsbD_eq; intro i hi; simp [nField, getLsbD_wordXYN, hi]

end

/-! ## Fields as numbers -/

theorem opField_toNat (w : Word) : (opField w).toNat = w.toNat / 4096 := by
  have := w.isLt
  simp [opField, Nat.shiftRight_eq_div_pow]; omega
theorem xField_toNat (w : Word) : (xField w).toNat = w.toNat / 256 % 16 := by
  simp [xField, Nat.shiftRight_eq_div_pow]
theorem nField_toNat (w : Word) : (nField w).toNat = w.toNat % 16 := by simp [nField]
theorem kkField_toNat (w : Word) : (kkField w).toNat = w.toNat % 256 := by simp [kkField]
theorem nnnField_toNat (w : Word) : (nnnField w).toNat = w.toNat % 4096 := by simp [nnnField]

/-! ## A word is its fields -/

/-- A word is its format-A fields. -/
theorem wordA_fields (w : Word) : wordA (opField w) (nnnField w) = w := by
  apply BitVec.eq_of_getLsbD_eq; intro i hi
  rw [getLsbD_wordA]
  by_cases h : i < 12
  · simp [nnnField, h]
  · simp [opField, h, show i - 12 < 4 by omega, show 12 + (i - 12) = i by omega]

/-- A word is its format-XK fields. -/
theorem wordXK_fields (w : Word) : wordXK (opField w) (xField w) (kkField w) = w := by
  apply BitVec.eq_of_getLsbD_eq; intro i hi
  rw [getLsbD_wordXK]
  by_cases h8 : i < 8
  · simp [kkField, h8]
  · by_cases h : i < 12
    · simp [xField, h8, h, show i - 8 < 4 by omega, show 8 + (i - 8) = i by omega]
    · simp [opField, h8, h, show i - 12 < 4 by omega, show 12 + (i - 12) = i by omega]

/-- A word is its format-XYN fields. -/
theorem wordXYN_fields (w : Word) : wordXYN (opField w) (xField w) (yField w) (nField w) = w := by
  apply BitVec.eq_of_getLsbD_eq; intro i hi
  rw [getLsbD_wordXYN]
  by_cases h4 : i < 4
  · simp [nField, h4]
  · by_cases h8 : i < 8
    · simp [yField, h4, h8, show i - 4 < 4 by omega, show 4 + (i - 4) = i by omega]
    · by_cases h : i < 12
      · simp [xField, h4, h8, h, show i - 8 < 4 by omega, show 8 + (i - 8) = i by omega]
      · simp [opField, h4, h8, h, show i - 12 < 4 by omega, show 12 + (i - 12) = i by omega]

/-- The two bytes of a word, put together again high byte first, are the word (spec/20_memory.md R67). -/
@[simp] theorem wordOfBytes_bytes (w : Word) : wordOfBytes (highByte w) (lowByte w) = w := by
  apply BitVec.eq_of_getLsbD_eq; intro i hi
  simp only [wordOfBytes, highByte, lowByte, BitVec.getLsbD_append]
  by_cases h8 : i < 8
  · simp [h8]
  · simp [h8, show i - 8 < 8 by omega, show 8 + (i - 8) = i by omega]

end Sys2Proof.Laws
end

