-- ==== Sys2Proof/Laws/Flags.lean ====
section
/-! SUPPORT. The arithmetic and flag functions as numbers (spec/43_load_arithmetic.md, spec/44_bitwise_shift_random.md). -/

namespace Sys2Proof.Laws

open Sys2Proof.Machine

variable (a b : Byte)

@[simp] theorem flagByte_toNat (p : Bool) : (flagByte p).toNat = if p then 1 else 0 := by cases p <;> rfl

theorem sumByte_toNat : (sumByte a b).toNat = (a.toNat + b.toNat) % 256 := by
  simp [sumByte]

theorem carryFlag_toNat : (carryFlag a b).toNat = if a.toNat + b.toNat > 255 then 1 else 0 := by
  simp [carryFlag]

theorem differenceByte_toNat : (differenceByte a b).toNat = (a.toNat + 256 - b.toNat) % 256 := by
  simp [differenceByte]

theorem noBorrowFlag_toNat : (noBorrowFlag a b).toNat = if a.toNat ≥ b.toNat then 1 else 0 := by
  simp [noBorrowFlag]

theorem shiftRightByte_toNat : (shiftRightByte a).toNat = a.toNat / 2 := by
  simp [shiftRightByte, Nat.shiftRight_eq_div_pow]

theorem shiftRightFlag_toNat : (shiftRightFlag a).toNat = a.toNat % 2 := by
  rw [shiftRightFlag, flagByte_toNat, BitVec.getLsbD, Nat.testBit_zero]
  have := Nat.mod_two_eq_zero_or_one a.toNat
  split <;> simp_all

theorem shiftLeftByte_toNat : (shiftLeftByte a).toNat = a.toNat * 2 % 256 := by
  simp [shiftLeftByte, Nat.shiftLeft_eq]

theorem shiftLeftFlag_toNat : (shiftLeftFlag a).toNat = a.toNat / 128 := by
  have ha := a.isLt
  rw [shiftLeftFlag, flagByte_toNat, BitVec.getLsbD, Nat.testBit_eq_decide_div_mod_eq]
  simp only [decide_eq_true_eq]
  split <;> omega

theorem countDown_toNat : (countDown a).toNat = a.toNat - 1 := by
  have ha := a.isLt
  unfold countDown
  split
  · subst_vars; rfl
  · rename_i h
    have : a.toNat ≠ 0 := fun h0 => h (BitVec.eq_of_toNat_eq h0)
    rw [BitVec.toNat_sub]; simp; omega

end Sys2Proof.Laws
end

