-- ==== Sys2Proof/Laws/State.lean ====
section
/-! SUPPORT. One lemma per field per update: what each update leaves of each field, so that no later proof unfolds a record
update. -/

namespace Sys2Proof.Laws

open Sys2Proof.Machine

variable (s : State)

/-! ## What each update writes -/

@[simp] theorem setReg_v (x : Nibble) (b : Byte) : (s.setReg x b).v = s.v.set x.toNat b x.isLt := rfl
@[simp] theorem setPc_pc (w : Word) : (s.setPc w).pc = w := rfl
@[simp] theorem advance_pc : s.advance.pc = s.pc + 2#16 := rfl
@[simp] theorem setI_i (w : Word) : (s.setI w).i = w := rfl
@[simp] theorem afterDraw_draws : s.afterDraw.draws = s.draws + 1 := rfl
@[simp] theorem timerStep_dt : (timerStep s).dt = countDown s.dt := rfl
@[simp] theorem timerStep_st : (timerStep s).st = countDown s.st := rfl
@[simp] theorem timerStep_sound : (timerStep s).sound = (s.sound || s.st != 0#8) := rfl
@[simp] theorem takeFault_mode (c : Cause) (w : Option Word) (n : Nat) : (takeFault s c w n).mode = .faulted := rfl
@[simp] theorem takeFault_fault (c : Cause) (w : Option Word) (n : Nat) :
    (takeFault s c w n).fault = some ⟨c, s.pc, w, n⟩ := rfl
@[simp] theorem setKey_key (k : Nat) (p : Bool) (h : k < 16) : (s.setKey k p h).key = s.key.set k p h := rfl

/-! ## What each update leaves -/

@[simp] theorem setReg_mem (x : Nibble) (b : Byte) : (s.setReg x b).mem = s.mem := rfl
@[simp] theorem setReg_i (x : Nibble) (b : Byte) : (s.setReg x b).i = s.i := rfl
@[simp] theorem setReg_pc (x : Nibble) (b : Byte) : (s.setReg x b).pc = s.pc := rfl
@[simp] theorem setReg_sp (x : Nibble) (b : Byte) : (s.setReg x b).sp = s.sp := rfl
@[simp] theorem setReg_stack (x : Nibble) (b : Byte) : (s.setReg x b).stack = s.stack := rfl
@[simp] theorem setReg_dt (x : Nibble) (b : Byte) : (s.setReg x b).dt = s.dt := rfl
@[simp] theorem setReg_st (x : Nibble) (b : Byte) : (s.setReg x b).st = s.st := rfl
@[simp] theorem setReg_disp (x : Nibble) (b : Byte) : (s.setReg x b).disp = s.disp := rfl
@[simp] theorem setReg_key (x : Nibble) (b : Byte) : (s.setReg x b).key = s.key := rfl
@[simp] theorem setReg_redraw (x : Nibble) (b : Byte) : (s.setReg x b).redraw = s.redraw := rfl
@[simp] theorem setReg_sound (x : Nibble) (b : Byte) : (s.setReg x b).sound = s.sound := rfl
@[simp] theorem setReg_keywait (x : Nibble) (b : Byte) : (s.setReg x b).keywait = s.keywait := rfl
@[simp] theorem setReg_mode (x : Nibble) (b : Byte) : (s.setReg x b).mode = s.mode := rfl
@[simp] theorem setReg_waitX (x : Nibble) (b : Byte) : (s.setReg x b).waitX = s.waitX := rfl
@[simp] theorem setReg_fault (x : Nibble) (b : Byte) : (s.setReg x b).fault = s.fault := rfl
@[simp] theorem setReg_cfg (x : Nibble) (b : Byte) : (s.setReg x b).cfg = s.cfg := rfl
@[simp] theorem setReg_draws (x : Nibble) (b : Byte) : (s.setReg x b).draws = s.draws := rfl

@[simp] theorem setPc_mem (w : Word) : (s.setPc w).mem = s.mem := rfl
@[simp] theorem setPc_v (w : Word) : (s.setPc w).v = s.v := rfl
@[simp] theorem setPc_i (w : Word) : (s.setPc w).i = s.i := rfl
@[simp] theorem setPc_sp (w : Word) : (s.setPc w).sp = s.sp := rfl
@[simp] theorem setPc_stack (w : Word) : (s.setPc w).stack = s.stack := rfl
@[simp] theorem setPc_dt (w : Word) : (s.setPc w).dt = s.dt := rfl
@[simp] theorem setPc_st (w : Word) : (s.setPc w).st = s.st := rfl
@[simp] theorem setPc_disp (w : Word) : (s.setPc w).disp = s.disp := rfl
@[simp] theorem setPc_key (w : Word) : (s.setPc w).key = s.key := rfl
@[simp] theorem setPc_redraw (w : Word) : (s.setPc w).redraw = s.redraw := rfl
@[simp] theorem setPc_sound (w : Word) : (s.setPc w).sound = s.sound := rfl
@[simp] theorem setPc_keywait (w : Word) : (s.setPc w).keywait = s.keywait := rfl
@[simp] theorem setPc_mode (w : Word) : (s.setPc w).mode = s.mode := rfl
@[simp] theorem setPc_waitX (w : Word) : (s.setPc w).waitX = s.waitX := rfl
@[simp] theorem setPc_fault (w : Word) : (s.setPc w).fault = s.fault := rfl
@[simp] theorem setPc_cfg (w : Word) : (s.setPc w).cfg = s.cfg := rfl
@[simp] theorem setPc_draws (w : Word) : (s.setPc w).draws = s.draws := rfl

@[simp] theorem advance_mem : s.advance.mem = s.mem := rfl
@[simp] theorem advance_v : s.advance.v = s.v := rfl
@[simp] theorem advance_i : s.advance.i = s.i := rfl
@[simp] theorem advance_sp : s.advance.sp = s.sp := rfl
@[simp] theorem advance_stack : s.advance.stack = s.stack := rfl
@[simp] theorem advance_dt : s.advance.dt = s.dt := rfl
@[simp] theorem advance_st : s.advance.st = s.st := rfl
@[simp] theorem advance_disp : s.advance.disp = s.disp := rfl
@[simp] theorem advance_key : s.advance.key = s.key := rfl
@[simp] theorem advance_redraw : s.advance.redraw = s.redraw := rfl
@[simp] theorem advance_sound : s.advance.sound = s.sound := rfl
@[simp] theorem advance_keywait : s.advance.keywait = s.keywait := rfl
@[simp] theorem advance_mode : s.advance.mode = s.mode := rfl
@[simp] theorem advance_waitX : s.advance.waitX = s.waitX := rfl
@[simp] theorem advance_fault : s.advance.fault = s.fault := rfl
@[simp] theorem advance_cfg : s.advance.cfg = s.cfg := rfl
@[simp] theorem advance_draws : s.advance.draws = s.draws := rfl

@[simp] theorem setI_mem (w : Word) : (s.setI w).mem = s.mem := rfl
@[simp] theorem setI_v (w : Word) : (s.setI w).v = s.v := rfl
@[simp] theorem setI_pc (w : Word) : (s.setI w).pc = s.pc := rfl
@[simp] theorem setI_sp (w : Word) : (s.setI w).sp = s.sp := rfl
@[simp] theorem setI_stack (w : Word) : (s.setI w).stack = s.stack := rfl
@[simp] theorem setI_dt (w : Word) : (s.setI w).dt = s.dt := rfl
@[simp] theorem setI_st (w : Word) : (s.setI w).st = s.st := rfl
@[simp] theorem setI_disp (w : Word) : (s.setI w).disp = s.disp := rfl
@[simp] theorem setI_key (w : Word) : (s.setI w).key = s.key := rfl
@[simp] theorem setI_redraw (w : Word) : (s.setI w).redraw = s.redraw := rfl
@[simp] theorem setI_sound (w : Word) : (s.setI w).sound = s.sound := rfl
@[simp] theorem setI_keywait (w : Word) : (s.setI w).keywait = s.keywait := rfl
@[simp] theorem setI_mode (w : Word) : (s.setI w).mode = s.mode := rfl
@[simp] theorem setI_waitX (w : Word) : (s.setI w).waitX = s.waitX := rfl
@[simp] theorem setI_fault (w : Word) : (s.setI w).fault = s.fault := rfl
@[simp] theorem setI_cfg (w : Word) : (s.setI w).cfg = s.cfg := rfl
@[simp] theorem setI_draws (w : Word) : (s.setI w).draws = s.draws := rfl

@[simp] theorem setByte_v (a : Nat) (b : Byte) : (s.setByte a b).v = s.v := rfl
@[simp] theorem setByte_i (a : Nat) (b : Byte) : (s.setByte a b).i = s.i := rfl
@[simp] theorem setByte_pc (a : Nat) (b : Byte) : (s.setByte a b).pc = s.pc := rfl
@[simp] theorem setByte_sp (a : Nat) (b : Byte) : (s.setByte a b).sp = s.sp := rfl
@[simp] theorem setByte_stack (a : Nat) (b : Byte) : (s.setByte a b).stack = s.stack := rfl
@[simp] theorem setByte_dt (a : Nat) (b : Byte) : (s.setByte a b).dt = s.dt := rfl
@[simp] theorem setByte_st (a : Nat) (b : Byte) : (s.setByte a b).st = s.st := rfl
@[simp] theorem setByte_disp (a : Nat) (b : Byte) : (s.setByte a b).disp = s.disp := rfl
@[simp] theorem setByte_key (a : Nat) (b : Byte) : (s.setByte a b).key = s.key := rfl
@[simp] theorem setByte_redraw (a : Nat) (b : Byte) : (s.setByte a b).redraw = s.redraw := rfl
@[simp] theorem setByte_sound (a : Nat) (b : Byte) : (s.setByte a b).sound = s.sound := rfl
@[simp] theorem setByte_keywait (a : Nat) (b : Byte) : (s.setByte a b).keywait = s.keywait := rfl
@[simp] theorem setByte_mode (a : Nat) (b : Byte) : (s.setByte a b).mode = s.mode := rfl
@[simp] theorem setByte_waitX (a : Nat) (b : Byte) : (s.setByte a b).waitX = s.waitX := rfl
@[simp] theorem setByte_fault (a : Nat) (b : Byte) : (s.setByte a b).fault = s.fault := rfl
@[simp] theorem setByte_cfg (a : Nat) (b : Byte) : (s.setByte a b).cfg = s.cfg := rfl
@[simp] theorem setByte_draws (a : Nat) (b : Byte) : (s.setByte a b).draws = s.draws := rfl

@[simp] theorem afterDraw_mem : s.afterDraw.mem = s.mem := rfl
@[simp] theorem afterDraw_v : s.afterDraw.v = s.v := rfl
@[simp] theorem afterDraw_i : s.afterDraw.i = s.i := rfl
@[simp] theorem afterDraw_pc : s.afterDraw.pc = s.pc := rfl
@[simp] theorem afterDraw_sp : s.afterDraw.sp = s.sp := rfl
@[simp] theorem afterDraw_stack : s.afterDraw.stack = s.stack := rfl
@[simp] theorem afterDraw_dt : s.afterDraw.dt = s.dt := rfl
@[simp] theorem afterDraw_st : s.afterDraw.st = s.st := rfl
@[simp] theorem afterDraw_disp : s.afterDraw.disp = s.disp := rfl
@[simp] theorem afterDraw_key : s.afterDraw.key = s.key := rfl
@[simp] theorem afterDraw_redraw : s.afterDraw.redraw = s.redraw := rfl
@[simp] theorem afterDraw_sound : s.afterDraw.sound = s.sound := rfl
@[simp] theorem afterDraw_keywait : s.afterDraw.keywait = s.keywait := rfl
@[simp] theorem afterDraw_mode : s.afterDraw.mode = s.mode := rfl
@[simp] theorem afterDraw_waitX : s.afterDraw.waitX = s.waitX := rfl
@[simp] theorem afterDraw_fault : s.afterDraw.fault = s.fault := rfl
@[simp] theorem afterDraw_cfg : s.afterDraw.cfg = s.cfg := rfl

@[simp] theorem timerStep_mem : (timerStep s).mem = s.mem := rfl
@[simp] theorem timerStep_v : (timerStep s).v = s.v := rfl
@[simp] theorem timerStep_i : (timerStep s).i = s.i := rfl
@[simp] theorem timerStep_pc : (timerStep s).pc = s.pc := rfl
@[simp] theorem timerStep_sp : (timerStep s).sp = s.sp := rfl
@[simp] theorem timerStep_stack : (timerStep s).stack = s.stack := rfl
@[simp] theorem timerStep_disp : (timerStep s).disp = s.disp := rfl
@[simp] theorem timerStep_key : (timerStep s).key = s.key := rfl
@[simp] theorem timerStep_redraw : (timerStep s).redraw = s.redraw := rfl
@[simp] theorem timerStep_keywait : (timerStep s).keywait = s.keywait := rfl
@[simp] theorem timerStep_mode : (timerStep s).mode = s.mode := rfl
@[simp] theorem timerStep_waitX : (timerStep s).waitX = s.waitX := rfl
@[simp] theorem timerStep_fault : (timerStep s).fault = s.fault := rfl
@[simp] theorem timerStep_cfg : (timerStep s).cfg = s.cfg := rfl
@[simp] theorem timerStep_draws : (timerStep s).draws = s.draws := rfl

@[simp] theorem takeFault_mem (c : Cause) (w : Option Word) (n : Nat) : (takeFault s c w n).mem = s.mem := rfl
@[simp] theorem takeFault_v (c : Cause) (w : Option Word) (n : Nat) : (takeFault s c w n).v = s.v := rfl
@[simp] theorem takeFault_i (c : Cause) (w : Option Word) (n : Nat) : (takeFault s c w n).i = s.i := rfl
@[simp] theorem takeFault_pc (c : Cause) (w : Option Word) (n : Nat) : (takeFault s c w n).pc = s.pc := rfl
@[simp] theorem takeFault_sp (c : Cause) (w : Option Word) (n : Nat) : (takeFault s c w n).sp = s.sp := rfl
@[simp] theorem takeFault_stack (c : Cause) (w : Option Word) (n : Nat) : (takeFault s c w n).stack = s.stack := rfl
@[simp] theorem takeFault_dt (c : Cause) (w : Option Word) (n : Nat) : (takeFault s c w n).dt = s.dt := rfl
@[simp] theorem takeFault_st (c : Cause) (w : Option Word) (n : Nat) : (takeFault s c w n).st = s.st := rfl
@[simp] theorem takeFault_disp (c : Cause) (w : Option Word) (n : Nat) : (takeFault s c w n).disp = s.disp := rfl
@[simp] theorem takeFault_key (c : Cause) (w : Option Word) (n : Nat) : (takeFault s c w n).key = s.key := rfl
@[simp] theorem takeFault_redraw (c : Cause) (w : Option Word) (n : Nat) : (takeFault s c w n).redraw = s.redraw := rfl
@[simp] theorem takeFault_sound (c : Cause) (w : Option Word) (n : Nat) : (takeFault s c w n).sound = s.sound := rfl
@[simp] theorem takeFault_keywait (c : Cause) (w : Option Word) (n : Nat) : (takeFault s c w n).keywait = s.keywait := rfl
@[simp] theorem takeFault_waitX (c : Cause) (w : Option Word) (n : Nat) : (takeFault s c w n).waitX = s.waitX := rfl
@[simp] theorem takeFault_cfg (c : Cause) (w : Option Word) (n : Nat) : (takeFault s c w n).cfg = s.cfg := rfl
@[simp] theorem takeFault_draws (c : Cause) (w : Option Word) (n : Nat) : (takeFault s c w n).draws = s.draws := rfl

@[simp] theorem setKey_mem (k : Nat) (p : Bool) (h : k < 16) : (s.setKey k p h).mem = s.mem := rfl
@[simp] theorem setKey_v (k : Nat) (p : Bool) (h : k < 16) : (s.setKey k p h).v = s.v := rfl
@[simp] theorem setKey_i (k : Nat) (p : Bool) (h : k < 16) : (s.setKey k p h).i = s.i := rfl
@[simp] theorem setKey_pc (k : Nat) (p : Bool) (h : k < 16) : (s.setKey k p h).pc = s.pc := rfl
@[simp] theorem setKey_sp (k : Nat) (p : Bool) (h : k < 16) : (s.setKey k p h).sp = s.sp := rfl
@[simp] theorem setKey_stack (k : Nat) (p : Bool) (h : k < 16) : (s.setKey k p h).stack = s.stack := rfl
@[simp] theorem setKey_dt (k : Nat) (p : Bool) (h : k < 16) : (s.setKey k p h).dt = s.dt := rfl
@[simp] theorem setKey_st (k : Nat) (p : Bool) (h : k < 16) : (s.setKey k p h).st = s.st := rfl
@[simp] theorem setKey_disp (k : Nat) (p : Bool) (h : k < 16) : (s.setKey k p h).disp = s.disp := rfl
@[simp] theorem setKey_redraw (k : Nat) (p : Bool) (h : k < 16) : (s.setKey k p h).redraw = s.redraw := rfl
@[simp] theorem setKey_sound (k : Nat) (p : Bool) (h : k < 16) : (s.setKey k p h).sound = s.sound := rfl
@[simp] theorem setKey_keywait (k : Nat) (p : Bool) (h : k < 16) : (s.setKey k p h).keywait = s.keywait := rfl
@[simp] theorem setKey_mode (k : Nat) (p : Bool) (h : k < 16) : (s.setKey k p h).mode = s.mode := rfl
@[simp] theorem setKey_waitX (k : Nat) (p : Bool) (h : k < 16) : (s.setKey k p h).waitX = s.waitX := rfl
@[simp] theorem setKey_fault (k : Nat) (p : Bool) (h : k < 16) : (s.setKey k p h).fault = s.fault := rfl
@[simp] theorem setKey_cfg (k : Nat) (p : Bool) (h : k < 16) : (s.setKey k p h).cfg = s.cfg := rfl
@[simp] theorem setKey_draws (k : Nat) (p : Bool) (h : k < 16) : (s.setKey k p h).draws = s.draws := rfl

/-! ## Updates by recursion or by cases -/

@[simp] theorem skipIf_mem (c : Bool) : (s.skipIf c).mem = s.mem := by cases c <;> rfl
@[simp] theorem skipIf_v (c : Bool) : (s.skipIf c).v = s.v := by cases c <;> rfl
@[simp] theorem skipIf_i (c : Bool) : (s.skipIf c).i = s.i := by cases c <;> rfl
@[simp] theorem skipIf_sp (c : Bool) : (s.skipIf c).sp = s.sp := by cases c <;> rfl
@[simp] theorem skipIf_stack (c : Bool) : (s.skipIf c).stack = s.stack := by cases c <;> rfl
@[simp] theorem skipIf_dt (c : Bool) : (s.skipIf c).dt = s.dt := by cases c <;> rfl
@[simp] theorem skipIf_st (c : Bool) : (s.skipIf c).st = s.st := by cases c <;> rfl
@[simp] theorem skipIf_disp (c : Bool) : (s.skipIf c).disp = s.disp := by cases c <;> rfl
@[simp] theorem skipIf_key (c : Bool) : (s.skipIf c).key = s.key := by cases c <;> rfl
@[simp] theorem skipIf_redraw (c : Bool) : (s.skipIf c).redraw = s.redraw := by cases c <;> rfl
@[simp] theorem skipIf_sound (c : Bool) : (s.skipIf c).sound = s.sound := by cases c <;> rfl
@[simp] theorem skipIf_keywait (c : Bool) : (s.skipIf c).keywait = s.keywait := by cases c <;> rfl
@[simp] theorem skipIf_mode (c : Bool) : (s.skipIf c).mode = s.mode := by cases c <;> rfl
@[simp] theorem skipIf_waitX (c : Bool) : (s.skipIf c).waitX = s.waitX := by cases c <;> rfl
@[simp] theorem skipIf_fault (c : Bool) : (s.skipIf c).fault = s.fault := by cases c <;> rfl
@[simp] theorem skipIf_cfg (c : Bool) : (s.skipIf c).cfg = s.cfg := by cases c <;> rfl
@[simp] theorem skipIf_draws (c : Bool) : (s.skipIf c).draws = s.draws := by cases c <;> rfl
theorem skipIf_pc (c : Bool) : (s.skipIf c).pc = if c then s.pc + 2#16 else s.pc := by cases c <;> rfl

@[simp] theorem setFlagThenReg_mem (x : Nibble) (g b : Byte) : (s.setFlagThenReg x g b).mem = s.mem := rfl
@[simp] theorem setFlagThenReg_i (x : Nibble) (g b : Byte) : (s.setFlagThenReg x g b).i = s.i := rfl
@[simp] theorem setFlagThenReg_pc (x : Nibble) (g b : Byte) : (s.setFlagThenReg x g b).pc = s.pc := rfl
@[simp] theorem setFlagThenReg_sp (x : Nibble) (g b : Byte) : (s.setFlagThenReg x g b).sp = s.sp := rfl
@[simp] theorem setFlagThenReg_stack (x : Nibble) (g b : Byte) : (s.setFlagThenReg x g b).stack = s.stack := rfl
@[simp] theorem setFlagThenReg_dt (x : Nibble) (g b : Byte) : (s.setFlagThenReg x g b).dt = s.dt := rfl
@[simp] theorem setFlagThenReg_st (x : Nibble) (g b : Byte) : (s.setFlagThenReg x g b).st = s.st := rfl
@[simp] theorem setFlagThenReg_disp (x : Nibble) (g b : Byte) : (s.setFlagThenReg x g b).disp = s.disp := rfl
@[simp] theorem setFlagThenReg_key (x : Nibble) (g b : Byte) : (s.setFlagThenReg x g b).key = s.key := rfl
@[simp] theorem setFlagThenReg_redraw (x : Nibble) (g b : Byte) : (s.setFlagThenReg x g b).redraw = s.redraw := rfl
@[simp] theorem setFlagThenReg_sound (x : Nibble) (g b : Byte) : (s.setFlagThenReg x g b).sound = s.sound := rfl
@[simp] theorem setFlagThenReg_keywait (x : Nibble) (g b : Byte) : (s.setFlagThenReg x g b).keywait = s.keywait := rfl
@[simp] theorem setFlagThenReg_mode (x : Nibble) (g b : Byte) : (s.setFlagThenReg x g b).mode = s.mode := rfl
@[simp] theorem setFlagThenReg_waitX (x : Nibble) (g b : Byte) : (s.setFlagThenReg x g b).waitX = s.waitX := rfl
@[simp] theorem setFlagThenReg_fault (x : Nibble) (g b : Byte) : (s.setFlagThenReg x g b).fault = s.fault := rfl
@[simp] theorem setFlagThenReg_cfg (x : Nibble) (g b : Byte) : (s.setFlagThenReg x g b).cfg = s.cfg := rfl
@[simp] theorem setFlagThenReg_draws (x : Nibble) (g b : Byte) : (s.setFlagThenReg x g b).draws = s.draws := rfl

@[simp] theorem setBytes_v (a : Nat) (bs : List Byte) : (s.setBytes a bs).v = s.v := by
  induction bs generalizing s a with
  | nil => rfl
  | cons b bs ih => simp [State.setBytes, ih]
@[simp] theorem setBytes_i (a : Nat) (bs : List Byte) : (s.setBytes a bs).i = s.i := by
  induction bs generalizing s a with
  | nil => rfl
  | cons b bs ih => simp [State.setBytes, ih]
@[simp] theorem setBytes_pc (a : Nat) (bs : List Byte) : (s.setBytes a bs).pc = s.pc := by
  induction bs generalizing s a with
  | nil => rfl
  | cons b bs ih => simp [State.setBytes, ih]
@[simp] theorem setBytes_sp (a : Nat) (bs : List Byte) : (s.setBytes a bs).sp = s.sp := by
  induction bs generalizing s a with
  | nil => rfl
  | cons b bs ih => simp [State.setBytes, ih]
@[simp] theorem setBytes_stack (a : Nat) (bs : List Byte) : (s.setBytes a bs).stack = s.stack := by
  induction bs generalizing s a with
  | nil => rfl
  | cons b bs ih => simp [State.setBytes, ih]
@[simp] theorem setBytes_dt (a : Nat) (bs : List Byte) : (s.setBytes a bs).dt = s.dt := by
  induction bs generalizing s a with
  | nil => rfl
  | cons b bs ih => simp [State.setBytes, ih]
@[simp] theorem setBytes_st (a : Nat) (bs : List Byte) : (s.setBytes a bs).st = s.st := by
  induction bs generalizing s a with
  | nil => rfl
  | cons b bs ih => simp [State.setBytes, ih]
@[simp] theorem setBytes_disp (a : Nat) (bs : List Byte) : (s.setBytes a bs).disp = s.disp := by
  induction bs generalizing s a with
  | nil => rfl
  | cons b bs ih => simp [State.setBytes, ih]
@[simp] theorem setBytes_key (a : Nat) (bs : List Byte) : (s.setBytes a bs).key = s.key := by
  induction bs generalizing s a with
  | nil => rfl
  | cons b bs ih => simp [State.setBytes, ih]
@[simp] theorem setBytes_redraw (a : Nat) (bs : List Byte) : (s.setBytes a bs).redraw = s.redraw := by
  induction bs generalizing s a with
  | nil => rfl
  | cons b bs ih => simp [State.setBytes, ih]
@[simp] theorem setBytes_sound (a : Nat) (bs : List Byte) : (s.setBytes a bs).sound = s.sound := by
  induction bs generalizing s a with
  | nil => rfl
  | cons b bs ih => simp [State.setBytes, ih]
@[simp] theorem setBytes_keywait (a : Nat) (bs : List Byte) : (s.setBytes a bs).keywait = s.keywait := by
  induction bs generalizing s a with
  | nil => rfl
  | cons b bs ih => simp [State.setBytes, ih]
@[simp] theorem setBytes_mode (a : Nat) (bs : List Byte) : (s.setBytes a bs).mode = s.mode := by
  induction bs generalizing s a with
  | nil => rfl
  | cons b bs ih => simp [State.setBytes, ih]
@[simp] theorem setBytes_waitX (a : Nat) (bs : List Byte) : (s.setBytes a bs).waitX = s.waitX := by
  induction bs generalizing s a with
  | nil => rfl
  | cons b bs ih => simp [State.setBytes, ih]
@[simp] theorem setBytes_fault (a : Nat) (bs : List Byte) : (s.setBytes a bs).fault = s.fault := by
  induction bs generalizing s a with
  | nil => rfl
  | cons b bs ih => simp [State.setBytes, ih]
@[simp] theorem setBytes_cfg (a : Nat) (bs : List Byte) : (s.setBytes a bs).cfg = s.cfg := by
  induction bs generalizing s a with
  | nil => rfl
  | cons b bs ih => simp [State.setBytes, ih]
@[simp] theorem setBytes_draws (a : Nat) (bs : List Byte) : (s.setBytes a bs).draws = s.draws := by
  induction bs generalizing s a with
  | nil => rfl
  | cons b bs ih => simp [State.setBytes, ih]

@[simp] theorem loadFirstRegs_mem (a n : Nat) : (s.loadFirstRegs a n).mem = s.mem := by
  induction n with
  | zero => rfl
  | succ n ih => simp [State.loadFirstRegs, ih]
@[simp] theorem loadFirstRegs_i (a n : Nat) : (s.loadFirstRegs a n).i = s.i := by
  induction n with
  | zero => rfl
  | succ n ih => simp [State.loadFirstRegs, ih]
@[simp] theorem loadFirstRegs_pc (a n : Nat) : (s.loadFirstRegs a n).pc = s.pc := by
  induction n with
  | zero => rfl
  | succ n ih => simp [State.loadFirstRegs, ih]
@[simp] theorem loadFirstRegs_sp (a n : Nat) : (s.loadFirstRegs a n).sp = s.sp := by
  induction n with
  | zero => rfl
  | succ n ih => simp [State.loadFirstRegs, ih]
@[simp] theorem loadFirstRegs_stack (a n : Nat) : (s.loadFirstRegs a n).stack = s.stack := by
  induction n with
  | zero => rfl
  | succ n ih => simp [State.loadFirstRegs, ih]
@[simp] theorem loadFirstRegs_dt (a n : Nat) : (s.loadFirstRegs a n).dt = s.dt := by
  induction n with
  | zero => rfl
  | succ n ih => simp [State.loadFirstRegs, ih]
@[simp] theorem loadFirstRegs_st (a n : Nat) : (s.loadFirstRegs a n).st = s.st := by
  induction n with
  | zero => rfl
  | succ n ih => simp [State.loadFirstRegs, ih]
@[simp] theorem loadFirstRegs_disp (a n : Nat) : (s.loadFirstRegs a n).disp = s.disp := by
  induction n with
  | zero => rfl
  | succ n ih => simp [State.loadFirstRegs, ih]
@[simp] theorem loadFirstRegs_key (a n : Nat) : (s.loadFirstRegs a n).key = s.key := by
  induction n with
  | zero => rfl
  | succ n ih => simp [State.loadFirstRegs, ih]
@[simp] theorem loadFirstRegs_redraw (a n : Nat) : (s.loadFirstRegs a n).redraw = s.redraw := by
  induction n with
  | zero => rfl
  | succ n ih => simp [State.loadFirstRegs, ih]
@[simp] theorem loadFirstRegs_sound (a n : Nat) : (s.loadFirstRegs a n).sound = s.sound := by
  induction n with
  | zero => rfl
  | succ n ih => simp [State.loadFirstRegs, ih]
@[simp] theorem loadFirstRegs_keywait (a n : Nat) : (s.loadFirstRegs a n).keywait = s.keywait := by
  induction n with
  | zero => rfl
  | succ n ih => simp [State.loadFirstRegs, ih]
@[simp] theorem loadFirstRegs_mode (a n : Nat) : (s.loadFirstRegs a n).mode = s.mode := by
  induction n with
  | zero => rfl
  | succ n ih => simp [State.loadFirstRegs, ih]
@[simp] theorem loadFirstRegs_waitX (a n : Nat) : (s.loadFirstRegs a n).waitX = s.waitX := by
  induction n with
  | zero => rfl
  | succ n ih => simp [State.loadFirstRegs, ih]
@[simp] theorem loadFirstRegs_fault (a n : Nat) : (s.loadFirstRegs a n).fault = s.fault := by
  induction n with
  | zero => rfl
  | succ n ih => simp [State.loadFirstRegs, ih]
@[simp] theorem loadFirstRegs_cfg (a n : Nat) : (s.loadFirstRegs a n).cfg = s.cfg := by
  induction n with
  | zero => rfl
  | succ n ih => simp [State.loadFirstRegs, ih]
@[simp] theorem loadFirstRegs_draws (a n : Nat) : (s.loadFirstRegs a n).draws = s.draws := by
  induction n with
  | zero => rfl
  | succ n ih => simp [State.loadFirstRegs, ih]

end Sys2Proof.Laws
end

