-- ==== Sys2Proof/Laws/Memory.lean ====
section
/-! SUPPORT. Memory: read after write (spec/20_memory.md R72, R73), and that every memory operation keeps the canonical form. -/

namespace Sys2Proof.Laws

open Sys2Proof.Machine

/-! ## The list of cells -/

theorem lookup_put (m : Memory) (a k : Nat) (b : Byte) :
    Memory.lookup (Memory.put m a b) k = if k = a then some b else Memory.lookup m k := by
  induction m with
  | nil => simp [Memory.put, Memory.lookup]
  | cons c m ih =>
    obtain ⟨j, d⟩ := c
    simp only [Memory.put]
    split
    · simp [Memory.lookup]
    · split
      · subst_vars; simp only [Memory.lookup]; split <;> rfl
      · simp only [Memory.lookup, ih]; split <;> split <;> simp_all

theorem lookup_drop (m : Memory) (a k : Nat) :
    Memory.lookup (Memory.drop m a) k = if k = a then none else Memory.lookup m k := by
  induction m with
  | nil => simp [Memory.drop, Memory.lookup]
  | cons c m ih =>
    obtain ⟨j, d⟩ := c
    simp only [Memory.drop] at ih
    by_cases hj : j = a
    · subst hj; simp [Memory.drop, Memory.lookup]; split <;> simp_all
    · simp only [Memory.drop, List.filter_cons, ne_eq, hj, not_false_eq_true, decide_true, if_true,
        Memory.lookup, ih]
      split <;> split <;> simp_all

/-! ## Reading a byte after an update -/

variable (s : State)

/-- A write changes only the byte it names. -/
theorem byteAt_setByte (a k : Nat) (b : Byte) :
    (s.setByte a b).byteAt k = if k = a then b else s.byteAt k := by
  simp only [State.byteAt, State.setByte]
  split
  · rename_i hb
    rw [lookup_drop]; split
    · subst_vars; rfl
    · rfl
  · rw [lookup_put]; split <;> rfl

/-- A state with the same MEM and configuration reads the same bytes. -/
theorem byteAt_congr {s t : State} (hm : t.mem = s.mem) (hc : t.cfg = s.cfg) (a : Nat) : t.byteAt a = s.byteAt a := by
  simp [State.byteAt, hm, hc]

@[simp] theorem byteAt_setReg (x : Nibble) (b : Byte) (a : Nat) : (s.setReg x b).byteAt a = s.byteAt a := rfl
@[simp] theorem byteAt_setPc (w : Word) (a : Nat) : (s.setPc w).byteAt a = s.byteAt a := rfl
@[simp] theorem byteAt_advance (a : Nat) : s.advance.byteAt a = s.byteAt a := rfl
@[simp] theorem byteAt_setI (w : Word) (a : Nat) : (s.setI w).byteAt a = s.byteAt a := rfl
@[simp] theorem byteAt_afterDraw (a : Nat) : s.afterDraw.byteAt a = s.byteAt a := rfl
@[simp] theorem byteAt_timerStep (a : Nat) : (timerStep s).byteAt a = s.byteAt a := rfl
@[simp] theorem byteAt_takeFault (c : Cause) (w : Option Word) (n a : Nat) :
    (takeFault s c w n).byteAt a = s.byteAt a := rfl
@[simp] theorem byteAt_setFlagThenReg (x : Nibble) (g b : Byte) (a : Nat) :
    (s.setFlagThenReg x g b).byteAt a = s.byteAt a := rfl
@[simp] theorem byteAt_skipIf (c : Bool) (a : Nat) : (s.skipIf c).byteAt a = s.byteAt a :=
  byteAt_congr (by simp) (by simp) a
@[simp] theorem byteAt_loadFirstRegs (base n a : Nat) : (s.loadFirstRegs base n).byteAt a = s.byteAt a :=
  byteAt_congr (by simp) (by simp) a

/-- Storing a list of bytes writes exactly the addresses from `base` on, one byte each. -/
theorem byteAt_setBytes (base : Nat) (bs : List Byte) (k : Nat) :
    (s.setBytes base bs).byteAt k =
      if h : base ≤ k ∧ k < base + bs.length then bs[k - base]'(by omega) else s.byteAt k := by
  induction bs generalizing s base with
  | nil => simp only [State.setBytes, List.length_nil]; rw [dif_neg (by omega)]
  | cons b bs ih =>
    simp only [State.setBytes, ih, byteAt_setByte, List.length_cons]
    by_cases hk : k = base
    · subst hk; rw [dif_neg (by omega), dif_pos (by omega)]; simp
    · by_cases hr : base + 1 ≤ k ∧ k < base + 1 + bs.length
      · rw [dif_pos hr, dif_pos (by omega)]
        rw [List.getElem_cons, dif_neg (by omega)]
        congr 1
      · rw [dif_neg hr, dif_neg (by omega), if_neg hk]

/-- The j-th of the bytes read from `base` on. -/
theorem getElem_bytesAt (base n j : Nat) (h : j < (s.bytesAt base n).length) :
    (s.bytesAt base n)[j] = s.byteAt (base + j) := by
  induction n generalizing base j with
  | zero => simp [State.bytesAt] at h
  | succ n ih =>
    cases j with
    | zero => simp [State.bytesAt]
    | succ j => simp only [State.bytesAt, List.getElem_cons_succ, ih]; congr 1; omega

@[simp] theorem length_bytesAt (base n : Nat) : (s.bytesAt base n).length = n := by
  induction n generalizing base with
  | zero => rfl
  | succ n ih => simp [State.bytesAt, ih]

@[simp] theorem length_firstRegs (n : Nat) : (s.firstRegs n).length = n := by simp [State.firstRegs]

/-- A store list that holds V0 … V[n-1]. -/
theorem getElem_firstRegs (n j : Nat) (h : j < (s.firstRegs n).length) :
    (s.firstRegs n)[j] = s.reg (BitVec.ofNat 4 j) := by simp [State.firstRegs]

/-- A state with the same MEM and configuration reads the same lists of bytes. -/
theorem bytesAt_congr {s t : State} (hm : t.mem = s.mem) (hc : t.cfg = s.cfg) (a n : Nat) :
    t.bytesAt a n = s.bytesAt a n := by
  induction n generalizing a with
  | zero => rfl
  | succ n ih => simp [State.bytesAt, ih, byteAt_congr hm hc]

/-! ## The canonical form -/

/-- A tail of a canonical list is canonical from any lower address. -/
theorem wfFrom_mono (cfg : Config) {lo lo' : Nat} (h : lo' ≤ lo) (m : Memory) (hm : Memory.wfFrom cfg lo m = true) :
    Memory.wfFrom cfg lo' m = true := by
  cases m with
  | nil => rfl
  | cons c m =>
    simp only [Memory.wfFrom, Bool.and_eq_true, decide_eq_true_eq] at hm ⊢
    exact ⟨⟨⟨by omega, hm.1.1.2⟩, hm.1.2⟩, hm.2⟩

theorem wfFrom_put (cfg : Config) (lo : Nat) (m : Memory) (a : Nat) (b : Byte) (hm : Memory.wfFrom cfg lo m = true)
    (hlo : lo ≤ a) (ha : a < memSize) (hb : b ≠ cfg.creationByte a) : Memory.wfFrom cfg lo (Memory.put m a b) = true := by
  induction m generalizing lo with
  | nil => simp [Memory.put, Memory.wfFrom, hlo, ha, hb]
  | cons c m ih =>
    obtain ⟨k, d⟩ := c
    have hm' := hm
    simp only [Memory.wfFrom, Bool.and_eq_true, decide_eq_true_eq, bne_iff_ne] at hm
    simp only [Memory.put]
    split
    · simp only [Memory.wfFrom, Bool.and_eq_true, decide_eq_true_eq, bne_iff_ne]
      exact ⟨⟨⟨hlo, ha⟩, hb⟩, ⟨⟨by omega, hm.1.1.2⟩, hm.1.2⟩, hm.2⟩
    · split
      · subst_vars; simp only [Memory.wfFrom, Bool.and_eq_true, decide_eq_true_eq, bne_iff_ne]
        exact ⟨⟨⟨hlo, ha⟩, hb⟩, hm.2⟩
      · simp only [Memory.wfFrom, Bool.and_eq_true, decide_eq_true_eq, bne_iff_ne]
        exact ⟨hm.1, ih (k + 1) hm.2 (by omega)⟩

theorem wfFrom_drop (cfg : Config) (lo : Nat) (m : Memory) (a : Nat) (hm : Memory.wfFrom cfg lo m = true) :
    Memory.wfFrom cfg lo (Memory.drop m a) = true := by
  induction m generalizing lo with
  | nil => rfl
  | cons c m ih =>
    obtain ⟨k, d⟩ := c
    simp only [Memory.wfFrom, Bool.and_eq_true, decide_eq_true_eq, bne_iff_ne] at hm
    have ih' := ih (k + 1) hm.2
    simp only [Memory.drop] at ih' ⊢
    rw [List.filter_cons]
    split
    · simp only [Memory.wfFrom, Bool.and_eq_true, decide_eq_true_eq, bne_iff_ne]; exact ⟨hm.1, ih'⟩
    · exact wfFrom_mono cfg (by omega) _ ih'

/-- A byte written inside MEM keeps the canonical form. -/
theorem wf_setByte (a : Nat) (b : Byte) (hs : Memory.wf s.cfg s.mem = true) (ha : a < memSize) :
    Memory.wf s.cfg (s.setByte a b).mem = true := by
  simp only [Memory.wf, State.setByte] at *
  split
  · exact wfFrom_drop _ _ _ _ hs
  · exact wfFrom_put _ _ _ _ _ hs (Nat.zero_le a) ha ‹_›

/-- A list of bytes stored inside MEM keeps the canonical form. -/
theorem wf_setBytes (base : Nat) (bs : List Byte) (hs : Memory.wf s.cfg s.mem = true)
    (hb : base + bs.length ≤ memSize) : Memory.wf s.cfg (s.setBytes base bs).mem = true := by
  induction bs generalizing s base with
  | nil => exact hs
  | cons b bs ih =>
    simp only [List.length_cons] at hb
    exact ih (s.setByte base b) (base + 1) (wf_setByte s base b hs (by omega)) (by omega)

/-- A new machine's memory has the canonical form, with nothing listed. -/
theorem wf_create (cfg : Config) (rng : Nat) : Memory.wf (State.create cfg rng).cfg (State.create cfg rng).mem = true := rfl

theorem wf_reset : Memory.wf State.reset.cfg State.reset.mem = true := rfl

end Sys2Proof.Laws
end

