-- ==== Sys2Proof/Laws/Registers.lean ====
section
/-! SUPPORT. Reading a register after an update. -/

namespace Sys2Proof.Laws

open Sys2Proof.Machine

variable (s : State)

/-- The general registers are independent of one another (spec/10_state.md R21). -/
theorem reg_setReg (x y : Nibble) (b : Byte) : (s.setReg x b).reg y = if x = y then b else s.reg y := by
  simp [State.reg, State.setReg, Vector.getElem_set, BitVec.toNat_eq]

@[simp] theorem reg_setReg_same (x : Nibble) (b : Byte) : (s.setReg x b).reg x = b := by simp [reg_setReg]

theorem reg_setReg_ne {x y : Nibble} (b : Byte) (h : x ≠ y) : (s.setReg x b).reg y = s.reg y := by
  simp [reg_setReg, h]

/-- A state with the same V reads the same registers. -/
theorem reg_congr {s t : State} (h : t.v = s.v) (x : Nibble) : t.reg x = s.reg x := by simp [State.reg, h]

@[simp] theorem reg_setPc (w : Word) (x : Nibble) : (s.setPc w).reg x = s.reg x := rfl
@[simp] theorem reg_advance (x : Nibble) : s.advance.reg x = s.reg x := rfl
@[simp] theorem reg_setI (w : Word) (x : Nibble) : (s.setI w).reg x = s.reg x := rfl
@[simp] theorem reg_setByte (a : Nat) (b : Byte) (x : Nibble) : (s.setByte a b).reg x = s.reg x := rfl
@[simp] theorem reg_afterDraw (x : Nibble) : s.afterDraw.reg x = s.reg x := rfl
@[simp] theorem reg_timerStep (x : Nibble) : (timerStep s).reg x = s.reg x := rfl
@[simp] theorem reg_takeFault (c : Cause) (w : Option Word) (n : Nat) (x : Nibble) :
    (takeFault s c w n).reg x = s.reg x := rfl
@[simp] theorem reg_setKey (k : Nat) (p : Bool) (h : k < 16) (x : Nibble) : (s.setKey k p h).reg x = s.reg x := rfl
@[simp] theorem reg_skipIf (c : Bool) (x : Nibble) : (s.skipIf c).reg x = s.reg x := reg_congr (by simp) x
@[simp] theorem reg_setBytes (a : Nat) (bs : List Byte) (x : Nibble) : (s.setBytes a bs).reg x = s.reg x :=
  reg_congr (by simp) x

/-- The write order of spec/43_load_arithmetic.md R200: the result wins over the flag. -/
theorem reg_setFlagThenReg (x y : Nibble) (g b : Byte) :
    (s.setFlagThenReg x g b).reg y = if x = y then b else if regF = y then g else s.reg y := by
  simp [State.setFlagThenReg, reg_setReg]

/-- The bulk load sets V0 … V[n-1] from memory and leaves the others. -/
theorem reg_loadFirstRegs (base n : Nat) (hn : n ≤ 16) (x : Nibble) :
    (s.loadFirstRegs base n).reg x = if x.toNat < n then s.byteAt (base + x.toNat) else s.reg x := by
  induction n with
  | zero => simp [State.loadFirstRegs]
  | succ n ih =>
    have hm : (s.loadFirstRegs base n).byteAt (base + n) = s.byteAt (base + n) := by simp [State.byteAt]
    have hx := x.isLt
    simp only [State.loadFirstRegs, reg_setReg, ih (by omega), hm]
    have key : BitVec.ofNat 4 n = x ↔ n = x.toNat := by
      rw [BitVec.toNat_eq, BitVec.toNat_ofNat, Nat.mod_eq_of_lt (by omega)]
    by_cases h : n = x.toNat
    · subst h; simp
    · simp only [key, h, if_false]
      split <;> split <;> first | rfl | omega

end Sys2Proof.Laws
end

