-- ==== Sys2Proof/Laws/Ops.lean ====
section
/-! SUPPORT. What the shared operations can do, said once: the address check, the fetch, the cycle, and exec as one cycle over the
instruction's handler. -/

namespace Sys2Proof.Laws

open Sys2Proof.Machine

/-! ## The address check (spec/20_memory.md R68) -/

theorem firstBadAddress_eq_some (base len a : Nat) :
    firstBadAddress base len = some a ↔ (0 < len ∧ base + len - 1 > 0xFFF) ∧ a = max base 0x1000 := by
  simp only [firstBadAddress, lastAddress]
  split <;> simp_all [eq_comm]

theorem firstBadAddress_eq_none (base len : Nat) :
    firstBadAddress base len = none ↔ len = 0 ∨ base + len - 1 ≤ 0xFFF := by
  simp only [firstBadAddress, lastAddress]
  split <;> simp <;> omega

/-- The address recorded is the lowest one outside MEM (spec/60_exceptions.md R345). -/
theorem firstOutside_iff (base len a : Nat) :
    FirstOutside base len a ↔ (0 < len ∧ base + len - 1 > 0xFFF) ∧ a = max base 0x1000 := by
  constructor
  · rintro ⟨h1, h2, h3, h4⟩
    refine ⟨by omega, ?_⟩
    by_cases hb : base ≤ 0xFFF
    · have : ¬ 0x1000 < a := fun h => by have := h4 0x1000 (by omega) h; omega
      omega
    · have : ¬ base < a := fun h => by have := h4 base (by omega) h; omega
      omega
  · rintro ⟨h, rfl⟩
    exact ⟨by omega, by omega, by omega, fun b _ _ => by omega⟩

theorem withRange_ok {base len : Nat} (h : len = 0 ∨ base + len - 1 ≤ 0xFFF) (k : Handled) : withRange base len k = k := by
  simp [withRange, (firstBadAddress_eq_none base len).2 h]

theorem withRange_bad {base len : Nat} (h : 0 < len ∧ base + len - 1 > 0xFFF) (k : Handled) :
    withRange base len k = .raised .dataOutOfRange (max base 0x1000) := by
  simp [withRange, (firstBadAddress_eq_some base len _).2 ⟨h, rfl⟩]

/-- An access that completes lies inside MEM. -/
theorem withRange_eq_done {base len : Nat} {k : Handled} {t : State} (h : withRange base len k = .done t) :
    (len = 0 ∨ base + len - 1 ≤ 0xFFF) ∧ k = .done t := by
  unfold withRange at h
  split at h
  · cases h
  · rename_i hn; exact ⟨(firstBadAddress_eq_none _ _).1 hn, h⟩

/-! ## The cycle (spec/40_engine_cycle.md R120, R121) -/

variable {w : Word} {handler : State → Handled} {s0 s t : State}

theorem runCycle_done (h : handler s0.advance = .done s) : runCycle w handler s0 = .next (timerStep s) := by
  simp [runCycle, h]

theorem runCycle_raised {c : Cause} {n : Nat} (h : handler s0.advance = .raised c n) :
    runCycle w handler s0 = .next (takeFault s0 c (some w) n) := by simp [runCycle, h]

/-- A cycle that answers a next state either completed its handler and stepped the timers, or took a fault. -/
theorem runCycle_cases (h : runCycle w handler s0 = .next t) :
    (∃ s, handler s0.advance = .done s ∧ t = timerStep s) ∨
    (∃ c n, handler s0.advance = .raised c n ∧ t = takeFault s0 c (some w) n) := by
  unfold runCycle at h
  split at h
  · exact .inl ⟨_, ‹_›, by injection h with h; exact h.symm⟩
  · exact .inr ⟨_, _, ‹_›, by injection h with h; exact h.symm⟩
  · cases h

/-- The handler of each instruction. -/
def handlerOf : Instr → State → Handled
  | .cls _ => handleCls
  | .ret _ => handleRet
  | .sys _ => handleSys
  | .jp nnn => handleJp nnn
  | .call nnn => handleCall nnn
  | .seImm x kk => handleSeImm x kk
  | .sneImm x kk => handleSneImm x kk
  | .seReg x y _ => handleSeReg x y
  | .ldImm x kk => handleLdImm x kk
  | .addImm x kk => handleAddImm x kk
  | .ldReg x y => handleLdReg x y
  | .orReg x y => handleOrReg x y
  | .andReg x y => handleAndReg x y
  | .xorReg x y => handleXorReg x y
  | .addReg x y => handleAddReg x y
  | .subReg x y => handleSubReg x y
  | .shr x y => handleShr x y
  | .subnReg x y => handleSubnReg x y
  | .shl x y => handleShl x y
  | .sneReg x y n => handleSneReg x y n
  | .ldI nnn => handleLdI nnn
  | .jpV0 nnn => handleJpV0 nnn
  | .rnd x kk => handleRnd x kk
  | .drw x y n => handleDrw x y n
  | .skp x => handleSkp x
  | .sknp x => handleSknp x
  | .ldVxDt x => handleLdVxDt x
  | .ldVxK x => handleLdVxK x
  | .ldDtVx x => handleLdDtVx x
  | .ldStVx x => handleLdStVx x
  | .addI x => handleAddI x
  | .ldF x => handleLdF x
  | .ldB x => handleLdB x
  | .storeRegs x => handleStoreRegs x
  | .loadRegs x => handleLoadRegs x

/-- exec is one cycle over the instruction's handler. -/
theorem exec_eq_runCycle (i : Instr) (s : State) : exec i s = runCycle (encode i) (handlerOf i) s := by cases i <;> rfl

/-- exec's next states. -/
theorem exec_cases {i : Instr} (h : exec i s0 = .next t) :
    (∃ s, handlerOf i s0.advance = .done s ∧ t = timerStep s) ∨
    (∃ c n, handlerOf i s0.advance = .raised c n ∧ t = takeFault s0 c (some (encode i)) n) :=
  runCycle_cases (exec_eq_runCycle i s0 ▸ h)

/-- A handler that completes: the state after the timer step. -/
theorem exec_done {i : Instr} {u : State} (h : handlerOf i s.advance = .done u) : exec i s = .next (timerStep u) := by
  rw [exec_eq_runCycle, runCycle_done h]

/-- A handler that raises: the fault is taken. -/
theorem exec_raised {i : Instr} {c : Cause} {n : Nat} (h : handlerOf i s.advance = .raised c n) :
    exec i s = .next (faultedState s c (some (encode i)) n) := by
  rw [exec_eq_runCycle, runCycle_raised h]; rfl

/-- What no handler changes: KEY, the configuration, FAULT and SOUND; REDRAW is never cleared; MODE and KEYWAIT stay, or both say
that the engine waits. -/
theorem handler_keeps (i : Instr) (s u : State) (h : handlerOf i s = .done u) :
    u.key = s.key ∧ u.cfg = s.cfg ∧ u.fault = s.fault ∧ u.sound = s.sound ∧ (s.redraw = true → u.redraw = true) ∧
    (u.mode = s.mode ∧ u.keywait = s.keywait ∨ u.mode = .awaitingKey ∧ u.keywait = true) := by
  cases i <;> simp only [handlerOf] at h
  case ret =>
    unfold handleRet at h; split at h
    · cases h
    · split at h <;> cases h; simp
  case call =>
    unfold handleCall at h; split at h
    · cases h
    · split at h <;> cases h; simp
  case skp => unfold handleSkp at h; split at h <;> cases h; simp
  case sknp => unfold handleSknp at h; split at h <;> cases h; simp
  case drw => have := (withRange_eq_done h).2; cases this; simp
  case ldB => have := (withRange_eq_done h).2; cases this; simp
  case storeRegs => have := (withRange_eq_done h).2; cases this; simp
  case loadRegs => have := (withRange_eq_done h).2; cases this; simp
  case cls => cases h; simp
  case ldVxK => cases h; simp
  case ldDtVx => cases h; simp
  case ldStVx => cases h; simp
  all_goals cases h; simp

/-! ## The step -/

theorem fetch_eq_some (h : s.pc.toNat + 1 ≤ 0xFFF) :
    s.fetch = some (wordOfBytes (s.byteAt s.pc.toNat) (s.byteAt (s.pc.toNat + 1))) := by
  simp only [State.fetch, lastAddress]; rw [if_neg (by omega)]

theorem fetch_eq_none (h : s.pc.toNat + 1 > 0xFFF) : s.fetch = none := by
  simp only [State.fetch, lastAddress]; rw [if_pos h]

/-- A step's next states: held; a fetch fault; one instruction; a word with no handler. -/
theorem step_cases (h : step s = .next t) :
    (s.mode = .awaitingKey ∧ t = s) ∨
    (s.mode = .running ∧ s.pc.toNat + 1 > 0xFFF ∧ t = takeFault s .fetchOutOfRange none s.pc.toNat) ∨
    (∃ w i, s.mode = .running ∧ s.pc.toNat + 1 ≤ 0xFFF ∧ s.fetch = some w ∧ decode w = .handler i ∧ exec i s = .next t) ∨
    (∃ w, s.mode = .running ∧ s.pc.toNat + 1 ≤ 0xFFF ∧ s.fetch = some w ∧ decode w = .noHandler w ∧
      t = noHandlerCycle s) := by
  have hno : ∀ w v, decode w = .noHandler v → v = w := by
    intro w v hd
    unfold decode decode0 decode8 decodeE decodeF at hd
    repeat' split at hd
    all_goals first | cases hd; rfl | cases hd
  unfold step cycle at h
  split at h
  · cases h
  · injection h with h; exact .inl ⟨‹_›, h.symm⟩
  · rename_i hm
    unfold runningCycle at h
    by_cases hp : s.pc.toNat + 1 > 0xFFF
    · rw [fetch_eq_none hp] at h
      injection h with h; exact .inr (.inl ⟨hm, hp, h.symm⟩)
    · have hf := fetch_eq_some (s := s) (by omega)
      rw [hf] at h
      simp only at h
      split at h
      · exact .inr (.inr (.inl ⟨_, _, hm, by omega, hf, ‹_›, h⟩))
      · rename_i hd
        injection h with h
        exact .inr (.inr (.inr ⟨_, hm, by omega, hf, by rw [hd, hno _ _ hd], h.symm⟩))

end Sys2Proof.Laws
end

