-- ==== Sys2Proof/Laws/Frames.lean ====
section
/-! SUPPORT. The frames of Safety.lean, met by the states the shared operations leave. -/

namespace Sys2Proof.Laws

open Sys2Proof.Machine

variable (s : State)

theorem sameRest_of {s t : State} (h1 : t.mem = s.mem) (h2 : t.cfg = s.cfg) (h3 : t.sp = s.sp) (h4 : t.stack = s.stack)
    (h5 : t.disp = s.disp) (h6 : t.redraw = s.redraw) (h7 : t.mode = s.mode) (h8 : t.keywait = s.keywait)
    (h9 : t.waitX = s.waitX) (h10 : t.fault = s.fault) (h11 : t.key = s.key) (h12 : t.draws = s.draws) : SameRest s t :=
  ⟨fun a => byteAt_congr h1 h2 a, ⟨h3, fun j => by simp [State.slot?, h4]⟩, ⟨fun r c => by rw [h5], h6⟩,
    ⟨h7, h8, h9, h10⟩, ⟨h11, h2⟩, h12⟩

/-- The timer step in numbers (spec/40_engine_cycle.md R124). -/
theorem timersRan_of {s t : State} (h1 : t.dt = countDown s.dt) (h2 : t.st = countDown s.st)
    (h3 : t.sound = (s.sound || s.st != 0#8)) : TimersRan s t := by
  refine ⟨by rw [h1, countDown_toNat], by rw [h2, countDown_toNat], ?_⟩
  rw [h3]
  by_cases h : s.st = 0#8
  · simp [h]
  · have : s.st.toNat ≠ 0 := fun h0 => h (BitVec.eq_of_toNat_eq h0)
    simp [this, h]

/-- A jump leaves everything but PC and the timers. -/
theorem onlyPc_setPc (w : Word) : OnlyPc s (timerStep (s.advance.setPc w)) :=
  ⟨fun _ _ => rfl, rfl, timersRan_of rfl rfl rfl,
    sameRest_of rfl rfl rfl rfl rfl rfl rfl rfl rfl rfl rfl rfl⟩

/-- A skip leaves everything but PC and the timers. -/
theorem onlyPc_skipIf (c : Bool) : OnlyPc s (timerStep (s.advance.skipIf c)) := by
  refine ⟨fun r _ => by simp, by simp, timersRan_of (by simp) (by simp) (by simp),
    sameRest_of ?_ ?_ ?_ ?_ ?_ ?_ ?_ ?_ ?_ ?_ ?_ ?_⟩ <;> simp

/-- Writing one register leaves everything but it, PC and the timers. -/
theorem onlyRegs_setReg (x : Nibble) (b : Byte) : OnlyRegs [x] s (timerStep (s.advance.setReg x b)) :=
  ⟨fun r h => by simp at h; simp [reg_setReg_ne _ _ (Ne.symm h)], rfl, rfl, timersRan_of rfl rfl rfl,
    sameRest_of rfl rfl rfl rfl rfl rfl rfl rfl rfl rfl rfl rfl⟩

/-- Writing a flag and a result leaves everything but those two registers, PC and the timers. -/
theorem onlyRegs_setFlagThenReg (x : Nibble) (g b : Byte) :
    OnlyRegs [x, 0xF#4] s (timerStep (s.advance.setFlagThenReg x g b)) := by
  refine ⟨fun r h => ?_, rfl, rfl, timersRan_of rfl rfl rfl,
    sameRest_of rfl rfl rfl rfl rfl rfl rfl rfl rfl rfl rfl rfl⟩
  simp at h
  simp [reg_setFlagThenReg, Ne.symm h.1, regF, Ne.symm h.2]

/-- Writing I leaves everything but it, PC and the timers. -/
theorem onlyIndex_setI (w : Word) : OnlyIndex s (timerStep (s.advance.setI w)) :=
  ⟨fun _ _ => rfl, rfl, timersRan_of rfl rfl rfl, sameRest_of rfl rfl rfl rfl rfl rfl rfl rfl rfl rfl rfl rfl⟩

end Sys2Proof.Laws
end

