-- ==== Sys2Proof/Laws/PerInstr.lean ====
section
/-! SUPPORT. Statements for all instructions, one lemma a constructor. -/

namespace Sys2Proof.Laws.MatchesRow

/-- The encoding of an instruction has the fixed bits of its row of spec/opcode_table.json. -/
def Statement (i : Instr) : Prop := i.row.covers (encode i) = true

/-- The masked word, bit by bit: a set mask bit keeps the word's bit. -/
theorem covers_iff (r : OpcodeRow) (w : Word) :
    r.covers w = true ↔ ∀ k, k < 16 → (w.getLsbD k && r.mask.getLsbD k) = r.pattern.getLsbD k := by
  simp only [OpcodeRow.covers, beq_iff_eq]
  constructor
  · intro h k _; rw [← BitVec.getLsbD_and, h]
  · intro h; apply BitVec.eq_of_getLsbD_eq; intro k hk; rw [BitVec.getLsbD_and]; exact h k hk

/-- A word with the top nibble `op` meets a row that fixes the top nibble alone. -/
theorem covers_op (m : String) (op : Nibble) (w : Word) (h : opField w = op) :
    (OpcodeRow.mk m 0xF000#16 (wordA op 0#12)).covers w = true := by
  rw [covers_iff]; intro k hk
  rw [← wordA_fields w, h, getLsbD_wordA, getLsbD_wordA]
  interval_cases k <;> simp [BitVec.getLsbD] <;> intro _ <;> decide

/-- A word with the top nibble and low byte of a row that fixes both. -/
theorem covers_xk (m : String) (op x : Nibble) (kk : Byte) :
    (OpcodeRow.mk m 0xF0FF#16 (wordXK op 0#4 kk)).covers (wordXK op x kk) = true := by
  rw [covers_iff]; intro k hk
  rw [getLsbD_wordXK, getLsbD_wordXK]
  interval_cases k <;> simp [BitVec.getLsbD] <;> intro _ <;> decide

/-- A word with the top and bottom nibbles of a row that fixes both. -/
theorem covers_xyn (m : String) (op x y n : Nibble) :
    (OpcodeRow.mk m 0xF00F#16 (wordXYN op 0#4 0#4 n)).covers (wordXYN op x y n) = true := by
  rw [covers_iff]; intro k hk
  rw [getLsbD_wordXYN, getLsbD_wordXYN]
  interval_cases k <;> simp [BitVec.getLsbD] <;> intro _ <;> decide

theorem cls (ign : Nibble) : Statement (.cls ign) := covers_xk _ _ _ _
theorem ret (ign : Nibble) : Statement (.ret ign) := covers_xk _ _ _ _
theorem sys (nnn : Addr12) : Statement (.sys nnn) := covers_op _ 0x0#4 _ (by simp [encode])
theorem jp (nnn : Addr12) : Statement (.jp nnn) := covers_op _ 0x1#4 _ (by simp [encode])
theorem call (nnn : Addr12) : Statement (.call nnn) := covers_op _ 0x2#4 _ (by simp [encode])
theorem seImm (x : Nibble) (kk : Byte) : Statement (.seImm x kk) := covers_op _ 0x3#4 _ (by simp [encode])
theorem sneImm (x : Nibble) (kk : Byte) : Statement (.sneImm x kk) := covers_op _ 0x4#4 _ (by simp [encode])
theorem seReg (x y n : Nibble) : Statement (.seReg x y n) := covers_op _ 0x5#4 _ (by simp [encode])
theorem ldImm (x : Nibble) (kk : Byte) : Statement (.ldImm x kk) := covers_op _ 0x6#4 _ (by simp [encode])
theorem addImm (x : Nibble) (kk : Byte) : Statement (.addImm x kk) := covers_op _ 0x7#4 _ (by simp [encode])
theorem ldReg (x y : Nibble) : Statement (.ldReg x y) := covers_xyn _ _ _ _ _
theorem orReg (x y : Nibble) : Statement (.orReg x y) := covers_xyn _ _ _ _ _
theorem andReg (x y : Nibble) : Statement (.andReg x y) := covers_xyn _ _ _ _ _
theorem xorReg (x y : Nibble) : Statement (.xorReg x y) := covers_xyn _ _ _ _ _
theorem addReg (x y : Nibble) : Statement (.addReg x y) := covers_xyn _ _ _ _ _
theorem subReg (x y : Nibble) : Statement (.subReg x y) := covers_xyn _ _ _ _ _
theorem shr (x y : Nibble) : Statement (.shr x y) := covers_xyn _ _ _ _ _
theorem subnReg (x y : Nibble) : Statement (.subnReg x y) := covers_xyn _ _ _ _ _
theorem shl (x y : Nibble) : Statement (.shl x y) := covers_xyn _ _ _ _ _
theorem sneReg (x y n : Nibble) : Statement (.sneReg x y n) := covers_op _ 0x9#4 _ (by simp [encode])
theorem ldI (nnn : Addr12) : Statement (.ldI nnn) := covers_op _ 0xA#4 _ (by simp [encode])
theorem jpV0 (nnn : Addr12) : Statement (.jpV0 nnn) := covers_op _ 0xB#4 _ (by simp [encode])
theorem rnd (x : Nibble) (kk : Byte) : Statement (.rnd x kk) := covers_op _ 0xC#4 _ (by simp [encode])
theorem drw (x y n : Nibble) : Statement (.drw x y n) := covers_op _ 0xD#4 _ (by simp [encode])
theorem skp (x : Nibble) : Statement (.skp x) := covers_xk _ _ _ _
theorem sknp (x : Nibble) : Statement (.sknp x) := covers_xk _ _ _ _
theorem ldVxDt (x : Nibble) : Statement (.ldVxDt x) := covers_xk _ _ _ _
theorem ldVxK (x : Nibble) : Statement (.ldVxK x) := covers_xk _ _ _ _
theorem ldDtVx (x : Nibble) : Statement (.ldDtVx x) := covers_xk _ _ _ _
theorem ldStVx (x : Nibble) : Statement (.ldStVx x) := covers_xk _ _ _ _
theorem addI (x : Nibble) : Statement (.addI x) := covers_xk _ _ _ _
theorem ldF (x : Nibble) : Statement (.ldF x) := covers_xk _ _ _ _
theorem ldB (x : Nibble) : Statement (.ldB x) := covers_xk _ _ _ _
theorem storeRegs (x : Nibble) : Statement (.storeRegs x) := covers_xk _ _ _ _
theorem loadRegs (x : Nibble) : Statement (.loadRegs x) := covers_xk _ _ _ _

end Sys2Proof.Laws.MatchesRow
end

