-- ==== Sys2Proof/Laws/Screen.lean ====
section
/-! SUPPORT. Pixels after an update of the grid (spec/45_display.md R260). -/

namespace Sys2Proof.Laws

open Sys2Proof.Machine

@[simp] theorem pixel_blank (r c : Nat) : Display.blank.pixel r c = false := by
  simp [Display.pixel, Display.blank]

/-- Coordinates are toroidal. -/
theorem pixel_mod (d : Display) (r c : Nat) : d.pixel (r % 32) (c % 64) = d.pixel r c := by
  simp [Display.pixel]

/-- Inverting a pixel inverts it alone. -/
theorem pixel_flip (d : Display) (row col r c : Nat) :
    (d.flip row col).pixel r c =
      if r % 32 = row % 32 ∧ c % 64 = col % 64 then !d.pixel r c else d.pixel r c := by
  simp only [Display.pixel, Display.flip]
  by_cases hr : row % 32 = r % 32
  · by_cases hc : col % 64 = c % 64
    · simp [hr, hc]
    · simp [hr, hc, Ne.symm hc]
  · simp [hr, Ne.symm hr]

/-- Some set bit of the j-th byte of `bs` lands on row `r`, column `c`, the grid being toroidal. -/
def Covers (row col : Nat) (bs : List Byte) (r c : Nat) : Prop :=
  ∃ j k, ∃ h : j < bs.length, k < 8 ∧ (row + j) % 32 = r % 32 ∧ (col + k) % 64 = c % 64 ∧ (bs[j]).getLsbD (7 - k) = true

/-- XORing k pixels of a sprite byte inverts those it covers, and reports whether one of them was set. -/
theorem xorRow_spec (acc : Display × Bool) (b : Byte) (row col k : Nat) (hk : k ≤ 8) :
    (∀ r c, (Display.xorRow acc b row col k).1.pixel r c =
      ((acc.1.pixel r c) !=
        (decide (∃ q, q < k ∧ row % 32 = r % 32 ∧ (col + q) % 64 = c % 64 ∧ b.getLsbD (7 - q) = true)))) ∧
    ((Display.xorRow acc b row col k).2 =
      (acc.2 || decide (∃ q, q < k ∧ b.getLsbD (7 - q) = true ∧ acc.1.pixel row (col + q) = true))) := by
  induction k with
  | zero => simp [Display.xorRow]
  | succ k ih =>
    obtain ⟨ih1, ih2⟩ := ih (by omega)
    simp only [Display.xorRow, Display.xorBit]
    by_cases hb : b.getLsbD (7 - k) = true
    · rw [if_pos hb]
      constructor
      · intro r c
        simp only [pixel_flip, ih1]
        have key : (∃ q, q < k + 1 ∧ row % 32 = r % 32 ∧ (col + q) % 64 = c % 64 ∧ b.getLsbD (7 - q) = true) ↔
            (∃ q, q < k ∧ row % 32 = r % 32 ∧ (col + q) % 64 = c % 64 ∧ b.getLsbD (7 - q) = true) ∨
              (row % 32 = r % 32 ∧ (col + k) % 64 = c % 64) := by
          constructor
          · rintro ⟨q, h1, h2, h3, h4⟩
            by_cases hq : q = k
            · subst hq; exact .inr ⟨h2, h3⟩
            · exact .inl ⟨q, by omega, h2, h3, h4⟩
          · rintro (⟨q, h1, h2⟩ | h)
            · exact ⟨q, by omega, h2⟩
            · exact ⟨k, by omega, h.1, h.2, hb⟩
        have excl : (row % 32 = r % 32 ∧ (col + k) % 64 = c % 64) → ¬ (∃ q, q < k ∧ row % 32 = r % 32 ∧ (col + q) % 64 = c % 64 ∧ b.getLsbD (7 - q) = true) := by
          rintro ⟨_, h⟩ ⟨q, h1, _, h3, _⟩; omega
        by_cases hc : row % 32 = r % 32 ∧ (col + k) % 64 = c % 64
        · rw [if_pos ⟨hc.1.symm, hc.2.symm⟩, decide_eq_false (excl hc), decide_eq_true (key.2 (.inr hc))]; cases acc.1.pixel r c <;> rfl
        · rw [if_neg (fun h => hc ⟨h.1.symm, h.2.symm⟩)]; congr 1; simp only [decide_eq_decide]; rw [key]; simp [hc]
      · rw [ih2, ih1]
        have excl : ¬ (∃ q, q < k ∧ row % 32 = row % 32 ∧ (col + q) % 64 = (col + k) % 64 ∧ b.getLsbD (7 - q) = true) := by
          rintro ⟨q, h1, _, h3, _⟩; omega
        rw [decide_eq_false excl]
        rw [Bool.eq_iff_iff]; simp
        constructor
        · rintro ((h | ⟨q, h1, h2⟩) | h)
          · exact .inl h
          · exact .inr ⟨q, by omega, h2⟩
          · exact .inr ⟨k, by omega, hb, h⟩
        · rintro (h | ⟨q, h1, h2, h3⟩)
          · exact .inl (.inl h)
          · by_cases hq : q = k
            · subst hq; exact .inr h3
            · exact .inl (.inr ⟨q, by omega, h2, h3⟩)
    · rw [if_neg hb]
      constructor
      · intro r c; rw [ih1]; congr 1; simp only [decide_eq_decide]
        constructor
        · rintro ⟨q, h1, h2⟩; exact ⟨q, by omega, h2⟩
        · rintro ⟨q, h1, h2⟩
          refine ⟨q, ?_, h2⟩
          by_contra hc; have : q = k := by omega
          subst this; exact hb h2.2.2
      · rw [ih2]; congr 1; simp only [decide_eq_decide]
        constructor
        · rintro ⟨q, h1, h2⟩; exact ⟨q, by omega, h2⟩
        · rintro ⟨q, h1, h2⟩
          refine ⟨q, ?_, h2⟩
          by_contra hc; have : q = k := by omega
          subst this; exact hb h2.1

/-- XORing a sprite of at most 32 rows inverts exactly the pixels it covers. -/
theorem xorSprite_pixel (acc : Display × Bool) (row col : Nat) (bs : List Byte) (hl : bs.length ≤ 32) (r c : Nat) :
    ((Covers row col bs r c → (Display.xorSprite acc row col bs).1.pixel r c = !acc.1.pixel r c) ∧
    (¬ Covers row col bs r c → (Display.xorSprite acc row col bs).1.pixel r c = acc.1.pixel r c)) := by
  induction bs generalizing acc row with
  | nil => exact ⟨fun ⟨j, k, h, _⟩ => by simp at h, fun _ => rfl⟩
  | cons b bs ih =>
    simp only [List.length_cons] at hl
    have ih := ih (Display.xorRow acc b row col 8) (row + 1) (by omega)
    have h1 := (xorRow_spec acc b row col 8 (by omega)).1 r c
    simp only [Display.xorSprite]
    have key : Covers row col (b :: bs) r c ↔ (∃ q, q < 8 ∧ row % 32 = r % 32 ∧ (col + q) % 64 = c % 64 ∧ b.getLsbD (7 - q) = true) ∨ Covers (row + 1) col bs r c := by
      constructor
      · rintro ⟨j, k, h, hk, ha, hb, hc⟩
        cases j with
        | zero => exact .inl ⟨k, hk, ha, hb, hc⟩
        | succ j => exact .inr ⟨j, k, by simpa using h, hk, by rw [show row + 1 + j = row + (j+1) by omega]; exact ha, hb, hc⟩
      · rintro (⟨k, hk, ha, hb, hc⟩ | ⟨j, k, h, hk, ha, hb, hc⟩)
        · exact ⟨0, k, by simp, hk, ha, hb, hc⟩
        · exact ⟨j+1, k, by simpa using h, hk, by rw [show row + (j+1) = row + 1 + j by omega]; exact ha, hb, hc⟩
    by_cases hA : (∃ q, q < 8 ∧ row % 32 = r % 32 ∧ (col + q) % 64 = c % 64 ∧ b.getLsbD (7 - q) = true)
    · have hB : ¬ Covers (row + 1) col bs r c := by
        rintro ⟨j, k, h, hk, ha, hb, hc⟩
        obtain ⟨q, _, hq, _⟩ := hA; omega
      rw [ih.2 hB, h1, decide_eq_true hA]
      refine ⟨fun _ => by cases acc.1.pixel r c <;> rfl, fun h => absurd (key.2 (.inl hA)) h⟩
    · rw [decide_eq_false hA] at h1
      rw [show acc.1.pixel r c = (Display.xorRow acc b row col 8).1.pixel r c by rw [h1]; cases acc.1.pixel r c <;> rfl]
      refine ⟨fun h => ih.1 ((key.1 h).resolve_left hA), fun h => ih.2 (fun h' => h (key.2 (.inr h')))⟩

/-- The collision bit: a covered pixel was set before. -/
theorem xorSprite_collision (acc : Display × Bool) (row col : Nat) (bs : List Byte) (hl : bs.length ≤ 32) :
    (Display.xorSprite acc row col bs).2 = true ↔
      (acc.2 = true ∨ ∃ j k, ∃ h : j < bs.length, k < 8 ∧ (bs[j]).getLsbD (7 - k) = true ∧
        acc.1.pixel (row + j) (col + k) = true) := by
  induction bs generalizing acc row with
  | nil => simp [Display.xorSprite]
  | cons b bs ih =>
    simp only [List.length_cons] at hl
    simp only [Display.xorSprite]
    rw [ih _ _ (by omega), (xorRow_spec acc b row col 8 (by omega)).2]
    have pix : ∀ j k, j < bs.length → (Display.xorRow acc b row col 8).1.pixel (row + 1 + j) (col + k) = acc.1.pixel (row + 1 + j) (col + k) := by
      intro j k hj
      rw [(xorRow_spec acc b row col 8 (by omega)).1, decide_eq_false]; · cases acc.1.pixel _ _ <;> rfl
      rintro ⟨q, _, h, _⟩; omega
    simp only [Bool.or_eq_true, decide_eq_true_eq]
    constructor
    · rintro ((h | ⟨q, h1, h2, h3⟩) | ⟨j, k, h, hk, h2, h3⟩)
      · exact .inl h
      · exact .inr ⟨0, q, by simp, h1, h2, h3⟩
      · rw [pix j k h] at h3
        exact .inr ⟨j+1, k, by simpa using h, hk, h2, by rw [show row + (j+1) = row + 1 + j by omega]; exact h3⟩
    · rintro (h | ⟨j, k, h, hk, h2, h3⟩)
      · exact .inl (.inl h)
      · cases j with
        | zero => exact .inl (.inr ⟨k, hk, h2, h3⟩)
        | succ j =>
          have hj : j < bs.length := by simpa using h
          refine .inr ⟨j, k, hj, hk, h2, ?_⟩
          rw [pix j k hj, show row + 1 + j = row + (j+1) by omega]; exact h3

end Sys2Proof.Laws
end

