-- ==== Sys2Proof/Tests/Slice0.lean ====
section
/-! SUPPORT. Tests. Expected results are the worked examples E<n> and vectors V<n> of spec/95_test_vectors.md, or the spec rule
named; each test is one Cycle or one host operation from a state built by `start`. -/

namespace Sys2Proof.Tests

open Sys2Proof.Machine

/-- The creation state with a word at PC = 0x200. -/
def start (w : Nat) : State := State.reset.withFetchWord 16 w

/-- Whether one step answers a next state with the property. -/
def after (s : State) (p : State → Bool) : Bool :=
  match step s with
  | .next t => p t
  | .fault _ => false
  | .refused _ => false

/-- V[x] as a number. -/
def val (s : State) (x : Nibble) : Nat := (s.reg x).toNat

/-- FAULT as plain numbers: code, pc, word (none if absent), info. -/
def faultIs (t : State) (code pc : Nat) (word : Option Nat) (info : Nat) : Bool :=
  t.mode == .faulted &&
    t.fault.map (fun r => (r.cause.code, r.pc.toNat, r.word.map BitVec.toNat, r.info)) == some (code, pc, word, info)

/-! ## WellFormed refuses an ill-formed term of each check (R96) -/

theorem test_sys_with_low_byte_E0_is_ill_formed : (Instr.sys 0x0E0#12).wellFormed = false := by decide
theorem test_sys_with_low_byte_EE_is_ill_formed : (Instr.sys 0x7EE#12).wellFormed = false := by decide
theorem test_sys_otherwise_is_well_formed : (Instr.sys 0x123#12).wellFormed = true := by decide

/-! ## Decoding words written out from the encodings of R94–R99 -/

theorem test_decode_control_flow :
    decode 0x0123#16 = .handler (.sys 0x123#12) ∧ decode 0x07EE#16 = .handler (.ret 7#4) ∧
    decode 0x12A4#16 = .handler (.jp 0x2A4#12) ∧ decode 0x2210#16 = .handler (.call 0x210#12) ∧
    decode 0xBFFF#16 = .handler (.jpV0 0xFFF#12) := by decide

theorem test_decode_skips :
    decode 0x3342#16 = .handler (.seImm 3#4 0x42#8) ∧ decode 0x4342#16 = .handler (.sneImm 3#4 0x42#8) ∧
    decode 0x5AB3#16 = .handler (.seReg 0xA#4 0xB#4 3#4) ∧ decode 0x912F#16 = .handler (.sneReg 1#4 2#4 0xF#4) := by
  decide

theorem test_decode_load_arith :
    decode 0x6A9D#16 = .handler (.ldImm 0xA#4 0x9D#8) ∧ decode 0x7003#16 = .handler (.addImm 0#4 3#8) ∧
    decode 0x8150#16 = .handler (.ldReg 1#4 5#4) ∧ decode 0x8F14#16 = .handler (.addReg 0xF#4 1#4) ∧
    decode 0x8015#16 = .handler (.subReg 0#4 1#4) ∧ decode 0x8017#16 = .handler (.subnReg 0#4 1#4) := by decide

theorem test_decode_bitwise :
    decode 0x8121#16 = .handler (.orReg 1#4 2#4) ∧ decode 0x8122#16 = .handler (.andReg 1#4 2#4) ∧
    decode 0x8123#16 = .handler (.xorReg 1#4 2#4) ∧ decode 0x80F6#16 = .handler (.shr 0#4 0xF#4) ∧
    decode 0x801E#16 = .handler (.shl 0#4 1#4) ∧ decode 0xC30F#16 = .handler (.rnd 3#4 0x0F#8) := by decide

theorem test_decode_display :
    decode 0x05E0#16 = .handler (.cls 5#4) ∧ decode 0xD01F#16 = .handler (.drw 0#4 1#4 0xF#4) := by decide

theorem test_decode_keypad_timers :
    decode 0xE29E#16 = .handler (.skp 2#4) ∧ decode 0xE2A1#16 = .handler (.sknp 2#4) ∧
    decode 0xF307#16 = .handler (.ldVxDt 3#4) ∧ decode 0xF50A#16 = .handler (.ldVxK 5#4) ∧
    decode 0xF515#16 = .handler (.ldDtVx 5#4) ∧ decode 0xF618#16 = .handler (.ldStVx 6#4) := by decide

theorem test_decode_index_memory :
    decode 0xA300#16 = .handler (.ldI 0x300#12) ∧ decode 0xF21E#16 = .handler (.addI 2#4) ∧
    decode 0xF029#16 = .handler (.ldF 0#4) ∧ decode 0xF133#16 = .handler (.ldB 1#4) ∧
    decode 0xF255#16 = .handler (.storeRegs 2#4) ∧ decode 0xFF65#16 = .handler (.loadRegs 0xF#4) := by decide

/-- E12, V65, V95. -/
theorem test_decode_no_handler :
    decode 0x8128#16 = .noHandler 0x8128#16 ∧ decode 0xE0FF#16 = .noHandler 0xE0FF#16 ∧
    decode 0xF0FF#16 = .noHandler 0xF0FF#16 := by decide

theorem test_decode_bytes_high_byte_first :
    decodeBytes [0x12#8, 0xA4#8, 0x00#8] = .word (.handler (.jp 0x2A4#12)) [0x00#8] ∧
    decodeBytes [0x12#8] = .truncated ∧ decodeTableWord 16 0xF055 = some (.storeRegs 0#4) := by decide

/-! ## Control flow -/

/-- V1. -/
theorem test_sys_advances_pc : after (start 0x0123) (fun t => t.pc == 0x202#16) = true := by decide
/-- V4. -/
theorem test_ret_pops_and_ignores_the_nibble :
    after { start 0x07EE with sp := 1#8, stack := (Vector.replicate 16 0#16).set 0 0x206#16 }
      (fun t => t.pc == 0x206#16 && t.sp == 0#8 && t.slot? 0 == some 0x206#16) = true := by decide
/-- V3, with a nibble that the decoder ignores: FAULT.word is the word fetched (R342). -/
theorem test_ret_underflow : after (start 0x07EE) (fun t => faultIs t 4 0x200 (some 0x07EE) 0 && t.pc == 0x200#16) = true := by
  decide
/-- V5. -/
theorem test_jp : after (start 0x12A4) (fun t => t.pc == 0x2A4#16) = true := by decide
/-- V6's rule at PC = 0x200. -/
theorem test_call_pushes_advanced_pc :
    after (start 0x2210) (fun t => t.slot? 0 == some 0x202#16 && t.sp == 1#8 && t.pc == 0x210#16) = true := by decide
/-- V7. -/
theorem test_call_overflow :
    after { start 0x2300 with sp := 16#8 } (fun t => faultIs t 3 0x200 (some 0x2300) 16 && t.sp == 16#8) = true := by decide
/-- V10. -/
theorem test_jpV0_is_not_masked :
    after ((start 0xBFFF).setReg 0#4 0xFF#8) (fun t => t.pc == 0x10FE#16 && t.mode == .running) = true := by decide
/-- V11: the last legal fetch. -/
theorem test_fetch_at_FFE :
    after (({ State.reset with pc := 0xFFE#16 }).withFetchWord 16 0x1000) (fun t => t.pc == 0x000#16) = true := by decide
/-- V12. -/
theorem test_fetch_at_FFF_faults :
    after { State.reset with pc := 0xFFF#16 } (fun t => faultIs t 1 0xFFF none 0xFFF) = true := by decide

/-! ## Conditional skips -/

/-- V13, V14. -/
theorem test_seImm : (after ((start 0x3342).setReg 3#4 0x42#8) (fun t => t.pc == 0x204#16) &&
    after ((start 0x3342).setReg 3#4 0x41#8) (fun t => t.pc == 0x202#16)) = true := by decide
/-- V15, V16. -/
theorem test_sneImm : (after ((start 0x4342).setReg 3#4 0x41#8) (fun t => t.pc == 0x204#16) &&
    after ((start 0x4342).setReg 3#4 0x42#8) (fun t => t.pc == 0x202#16)) = true := by decide
/-- V17. -/
theorem test_seReg_ignores_n : after (((start 0x5AB3).setReg 0xA#4 1#8).setReg 0xB#4 1#8)
    (fun t => t.pc == 0x204#16) = true := by decide
/-- V18. -/
theorem test_seReg_differs : after (((start 0x5120).setReg 1#4 7#8).setReg 2#4 8#8)
    (fun t => t.pc == 0x202#16) = true := by decide
/-- V19. -/
theorem test_sneReg_y : after (((start 0x9120).setReg 1#4 7#8).setReg 2#4 8#8)
    (fun t => t.pc == 0x204#16) = true := by decide

/-- V20, V21: the set-up with another SNE_REG_Y_FIELD. -/
def sneStart (f : SneField) : State :=
  let s := (((start 0x9120).setReg 1#4 7#8).setReg 2#4 8#8).setReg 0#4 7#8
  { s with cfg := { s.cfg with sneField := f } }
theorem test_sneReg_x_and_n : (after (sneStart .x) (fun t => t.pc == 0x202#16) &&
    after (sneStart .n) (fun t => t.pc == 0x202#16)) = true := by decide

/-! ## Loads and arithmetic -/

/-- V23. -/
theorem test_ldImm : after (start 0x6A9D) (fun t => val t 0xA#4 == 0x9D) = true := by decide
/-- V24. -/
theorem test_addImm_wraps_without_flag : after (((start 0x7003).setReg 0#4 0xFE#8).setReg 0xF#4 9#8)
    (fun t => val t 0#4 == 1 && val t 0xF#4 == 9) = true := by decide
/-- V27. -/
theorem test_ldReg : after ((start 0x8150).setReg 5#4 0x33#8) (fun t => val t 1#4 == 0x33) = true := by decide
/-- E1. -/
theorem test_addReg_carry : after (((start 0x8014).setReg 0#4 250#8).setReg 1#4 10#8)
    (fun t => val t 0#4 == 4 && val t 0xF#4 == 1) = true := by decide
/-- V30: x = F, the result wins. -/
theorem test_addReg_into_vf : after (((start 0x8F14).setReg 0xF#4 200#8).setReg 1#4 100#8)
    (fun t => val t 0xF#4 == 44) = true := by decide
/-- E2. -/
theorem test_subReg_borrow : after (((start 0x8015).setReg 0#4 10#8).setReg 1#4 250#8)
    (fun t => val t 0#4 == 16 && val t 0xF#4 == 0) = true := by decide
/-- V32. -/
theorem test_subReg_equal : after (((start 0x8015).setReg 0#4 7#8).setReg 1#4 7#8)
    (fun t => val t 0#4 == 0 && val t 0xF#4 == 1) = true := by decide
/-- V34. -/
theorem test_subnReg : after (((start 0x8017).setReg 0#4 10#8).setReg 1#4 250#8)
    (fun t => val t 0#4 == 240 && val t 0xF#4 == 1) = true := by decide

/-! ## Bitwise, shift, random -/

/-- V37. -/
theorem test_orReg_keeps_vf : after ((((start 0x8121).setReg 1#4 0x0F#8).setReg 2#4 0x30#8).setReg 0xF#4 5#8)
    (fun t => val t 1#4 == 0x3F && val t 0xF#4 == 5) = true := by decide
/-- V39. -/
theorem test_andReg : after (((start 0x8122).setReg 1#4 0x3C#8).setReg 2#4 0x0F#8) (fun t => val t 1#4 == 0x0C) = true := by
  decide
/-- V40. -/
theorem test_xorReg : after (((start 0x8123).setReg 1#4 0xFF#8).setReg 2#4 0x0F#8) (fun t => val t 1#4 == 0xF0) = true := by
  decide
/-- V42. -/
theorem test_shr_vx : after ((start 0x8106).setReg 1#4 5#8) (fun t => val t 1#4 == 2 && val t 0xF#4 == 1) = true := by decide

/-- The set-up with SHIFT_SOURCE = VY. -/
def shiftVy (s : State) : State := { s with cfg := { s.cfg with shiftSource := .vy } }
/-- V43. -/
theorem test_shr_vy : after (shiftVy (((start 0x8106).setReg 0#4 0x80#8).setReg 1#4 5#8))
    (fun t => val t 1#4 == 0x40 && val t 0xF#4 == 0 && val t 0#4 == 0x80) = true := by decide
/-- V46. -/
theorem test_shl_vx : after ((start 0x810E).setReg 1#4 0x81#8) (fun t => val t 1#4 == 2 && val t 0xF#4 == 1) = true := by
  decide
/-- V49. -/
theorem test_shl_vy : after (shiftVy (((start 0x801E).setReg 0#4 1#8).setReg 1#4 0xC1#8))
    (fun t => val t 0#4 == 0x82 && val t 0xF#4 == 1) = true := by decide
/-- V51: one draw is consumed whatever the mask. -/
theorem test_rnd_draws_once : after (start 0xC300) (fun t => t.draws == 1) = true := by decide

/-! ## Display -/

/-- V52. -/
theorem test_cls : after { start 0x00E0 with disp := Display.blank.flip 3 4 }
    (fun t => !t.disp.pixel 3 4 && !t.redraw) = true := by decide
/-- V57: the sprite wraps in both directions. -/
theorem test_drw_wraps :
    after (((((start 0xD012).setReg 0#4 62#8).setReg 1#4 31#8).setBytes 0x20E [0x81#8, 0x81#8]).setI 0x20E#16)
      (fun t => t.disp.pixel 31 62 && t.disp.pixel 31 5 && t.disp.pixel 0 62 && t.disp.pixel 0 5 && !t.disp.pixel 0 63 &&
        val t 0xF#4 == 0 && t.redraw) = true := by
  decide
/-- V60. -/
theorem test_drw_out_of_range :
    after ((start 0xD013).setI 0xFFE#16) (fun t => faultIs t 2 0x200 (some 0xD013) 0x1000 && !t.redraw) = true := by decide

/-! ## Keypad and timers -/

/-- V61, V62 at PC = 0x200. -/
theorem test_skp : (after { (start 0xE29E).setReg 2#4 5#8 with key := (Vector.replicate 16 false).set 5 true }
      (fun t => t.pc == 0x204#16) &&
    after ((start 0xE29E).setReg 2#4 5#8) (fun t => t.pc == 0x202#16)) = true := by decide
/-- V64. -/
theorem test_skp_out_of_range :
    after ((start 0xE09E).setReg 0#4 16#8) (fun t => faultIs t 5 0x200 (some 0xE09E) 16) = true := by decide
/-- V63 at PC = 0x200. -/
theorem test_sknp : after ((start 0xE2A1).setReg 2#4 5#8) (fun t => t.pc == 0x204#16) = true := by decide
/-- V66 at PC = 0x200. -/
theorem test_ldVxK_waits : after (start 0xF50A)
    (fun t => t.pc == 0x202#16 && t.mode == .awaitingKey && t.waitX == 5#4 && t.keywait && val t 5#4 == 0) = true := by decide
/-- V72. -/
theorem test_ldVxDt : after { start 0xF307 with dt := 9#8 } (fun t => val t 3#4 == 9 && t.dt == 8#8) = true := by decide
/-- V74. -/
theorem test_ldDtVx : after ((start 0xF515).setReg 5#4 7#8) (fun t => t.dt == 6#8) = true := by decide
/-- V77. -/
theorem test_ldStVx_one_sounds : after ((start 0xF018).setReg 0#4 1#8) (fun t => t.st == 0#8 && t.sound) = true := by decide
/-- V78. -/
theorem test_ldStVx_zero_keeps_sound :
    after { start 0xF018 with sound := true } (fun t => t.st == 0#8 && t.sound) = true := by decide

/-! ## Index register and memory -/

/-- V81. -/
theorem test_ldI : after (start 0xA300) (fun t => t.i == 0x300#16) = true := by decide
/-- V83, V84. -/
theorem test_addI : (after ((((start 0xF01E).setI 0xFFF#16).setReg 0#4 1#8).setReg 0xF#4 7#8)
      (fun t => t.i == 0x1000#16 && val t 0xF#4 == 7) &&
    after (((start 0xF01E).setI 0xFFFF#16).setReg 0#4 1#8) (fun t => t.i == 0#16)) = true := by decide
/-- V86. -/
theorem test_ldF_is_not_masked : after ((start 0xF029).setReg 0#4 0xFF#8) (fun t => t.i == 0x4FB#16) = true := by decide
/-- V87. -/
theorem test_ldB_at_the_top : after (((start 0xF033).setI 0xFFD#16).setReg 0#4 255#8)
    (fun t => t.bytesAt 0xFFD 3 == [2#8, 5#8, 5#8] && t.i == 0xFFD#16) = true := by decide
/-- V89. -/
theorem test_ldB_out_of_range : after (((start 0xF033).setI 0xFFE#16).setReg 0#4 255#8)
    (fun t => faultIs t 2 0x200 (some 0xF033) 0x1000 && t.byteAt 0xFFE == 0#8) = true := by decide
/-- V90. -/
theorem test_storeRegs : after (((((start 0xF255).setI 0x300#16).setReg 0#4 1#8).setReg 1#4 2#8).setReg 2#4 3#8)
    (fun t => t.bytesAt 0x300 4 == [1#8, 2#8, 3#8, 0#8] && t.i == 0x303#16) = true := by decide
/-- V92. -/
theorem test_storeRegs_out_of_range : after ((start 0xFF55).setI 0xFF1#16)
    (fun t => faultIs t 2 0x200 (some 0xFF55) 0x1000 && t.i == 0xFF1#16) = true := by decide
/-- V93. -/
theorem test_loadRegs_all : after (((start 0xFF65).setI 0x300#16).setByte 0x30F 0xAB#8)
    (fun t => val t 0xF#4 == 0xAB && val t 0#4 == 0 && t.i == 0x310#16) = true := by decide
/-- V94. -/
theorem test_loadRegs_out_of_range : after ((start 0xF065).setI 0x1005#16)
    (fun t => faultIs t 2 0x200 (some 0xF065) 0x1005) = true := by decide

/-! ## Engine and host operations -/

/-- V65. -/
theorem test_no_handler_is_a_no_op : after { start 0xE0FF with dt := 2#8 } (fun t => t.pc == 0x202#16 && t.dt == 1#8) = true := by
  decide

/-- The state V66 leaves, with KEY[3] pressed (V68). -/
def waiting : State :=
  { State.reset with mode := .awaitingKey, keywait := true, waitX := 5#4, dt := 4#8, key := (Vector.replicate 16 false).set 3 true }
/-- V67. -/
theorem test_cycle_is_held : perform .cycle waiting = (.heldAwaitingKey, waiting) := by decide
/-- V68. -/
theorem test_held_key_does_not_complete : perform (.keyChange 3 true) waiting = (.ok, waiting) := by decide
/-- V69's press, of a key that is released. -/
theorem test_press_completes : ((perform (.keyChange 7 true) waiting).2.reg 5#4 == 7#8 &&
    (perform (.keyChange 7 true) waiting).2.mode == .running && !(perform (.keyChange 7 true) waiting).2.keywait) = true := by
  decide
/-- V70. -/
theorem test_key_16_is_refused : perform (.keyChange 16 true) State.reset = (.refused .keyOutOfRange, State.reset) := by decide
/-- V97. -/
theorem test_load_keeps_later_bytes :
    ((perform (.load [0x11#8, 0x22#8]) (State.reset.setBytes 0x200 [0xAA#8, 0xBB#8, 0xCC#8, 0xDD#8])).2.bytesAt 0x200 4) =
      [0x11#8, 0x22#8, 0xCC#8, 0xDD#8] := by decide
/-- V98. -/
theorem test_cycle_when_faulted_is_refused :
    (perform .cycle { State.reset with mode := .faulted }).1 = .refused .faulted := by decide
/-- V99. -/
theorem test_read_memory_at_the_top : (perform (.readMemory 0xFFE 2) State.reset).1 = .okMemory [0#8, 0#8] ∧
    (perform (.readMemory 0xFFF 2) State.reset).1 = .refused .addressOutOfRange := by decide
/-- R64, R65: the glyph for A stands at 0x032 of a new machine. -/
theorem test_font_glyph_A : State.reset.bytesAt 0x32 5 = [0xF0#8, 0x90#8, 0xF0#8, 0x90#8, 0x90#8] := by decide

/-! ## Witnesses

For each statement of Certificates/Slice0/Obligations.lean that has hypotheses: concrete states and operands that meet them,
each clause at a boundary value of its range. -/

theorem witness_DecodeOfEncodeIsTheInstruction :
    (Instr.drw 0xF#4 0xF#4 0xF#4).wellFormed = true ∧ (Instr.sys 0xFFF#12).wellFormed = true := by decide

theorem witness_EncodeOfDecodeIsTheWord :
    decode 0x0FEE#16 = .handler (.ret 0xF#4) ∧ decode 0xFF65#16 = .handler (.loadRegs 0xF#4) := by decide

/-- The second clause also at the last legal PC. -/
theorem witness_NoHandlerWordsAreNoOps :
    (start 0x800F).mode = .running ∧
    decode ((start 0x800F).byteAt 0x200 ++ (start 0x800F).byteAt 0x201) = .noHandler 0x800F#16 ∧
    decode ((State.withFetchWord { State.reset with pc := 0xFFE#16 } 16 0xFFFF).byteAt 0xFFE ++
      (State.withFetchWord { State.reset with pc := 0xFFE#16 } 16 0xFFFF).byteAt 0xFFF) = .noHandler 0xFFFF#16 := by decide

theorem witness_DecodeAgreesWithTheOpcodeTable :
    0x5AB3#16 &&& (Instr.seReg 0#4 0#4 0#4).row.mask = (Instr.seReg 0#4 0#4 0#4).row.pattern ∧
    (Instr.seReg 0#4 0#4 0#4).row.mnemonic ≠ "SYS_nnn" := by decide

theorem witness_HandlerIsIndependentOfTheLowByte :
    (0xDF00#16).toNat / 256 = (0xDFFF#16).toNat / 256 ∧ (0xDF00#16).toNat / 4096 ∉ [0x0, 0x8, 0xE, 0xF] ∧
    (0x1000#16).toNat / 256 = (0x10FF#16).toNat / 256 ∧ (0x1000#16).toNat / 4096 ∉ [0x0, 0x8, 0xE, 0xF] := by decide

/-- JP 0x2A4 at an odd PC and at the last legal PC. -/
def jumpAt (pc : Word) : State := State.withFetchWord { State.reset with pc := pc } 16 0x12A4
theorem witness_StepRunsTheDecodedInstruction :
    (jumpAt 0x201#16).mode = .running ∧ (jumpAt 0x201#16).pc.toNat + 1 ≤ 0xFFF ∧
    decode ((jumpAt 0x201#16).byteAt 0x201 ++ (jumpAt 0x201#16).byteAt 0x202) = .handler (.jp 0x2A4#12) ∧
    (jumpAt 0xFFE#16).mode = .running ∧ (jumpAt 0xFFE#16).pc.toNat + 1 ≤ 0xFFF ∧
    decode ((jumpAt 0xFFE#16).byteAt 0xFFE ++ (jumpAt 0xFFE#16).byteAt 0xFFF) = .handler (.jp 0x2A4#12) := by decide

theorem witness_FetchWordIsRunNext : decode (BitVec.ofNat 16 0x00E0) = .handler (.cls 0#4) := by decide

/-- PC at the first value past the last legal one and at the largest PC. -/
def endOfMemory (pc : Word) : State := { State.reset with pc := pc }
theorem witness_FetchPastTheTopFaults :
    (endOfMemory 0xFFF#16).mode = .running ∧ (endOfMemory 0xFFF#16).pc.toNat + 1 > 0xFFF ∧
    (endOfMemory 0xFFFF#16).pc.toNat + 1 > 0xFFF := by decide

/-- A state in Faulted: a RET at depth 0 raised. -/
def stopped : State := faultedState (start 0x00EE) .stackUnderflow (some 0x00EE#16) 0
theorem witness_StepOutsideRunning : stopped.mode = .faulted ∧ waiting.mode = .awaitingKey := by decide
theorem witness_FaultedIsAbsorbing :
    stopped.mode = .faulted ∧ stopped.fault = some ⟨.stackUnderflow, 0x200#16, some 0x00EE#16, 0⟩ := by decide

theorem witness_AwaitingKeyHoldsUntilAPress :
    waiting.mode = .awaitingKey ∧ (perform (.keyChange 15 true) waiting).2.mode ≠ .awaitingKey := by decide

theorem witness_SysOnlyAdvancesPc : (0xFFF#12).toNat % 256 ≠ 0xE0 ∧ (0xFFF#12).toNat % 256 ≠ 0xEE := by decide

/-- SP at a value, every slot holding 0x1000, the highest address a CALL pushes. -/
def atDepth (w sp : Nat) : State := { start w with sp := BitVec.ofNat 8 sp, stack := Vector.replicate 16 0x1000#16 }
/-- The stack depths at the ends of each clause, and a popped 0x1000, past the last legal PC. -/
theorem witness_RetPopsOrUnderflows :
    (atDepth 0x00EE 0).sp.toNat = 0 ∧ 0 < (atDepth 0x00EE 1).sp.toNat ∧ (atDepth 0x00EE 16).sp.toNat ≤ 16 ∧
    (atDepth 0x00EE 16).mode = .running ∧
    after (atDepth 0x00EE 16) (fun t => decide (t.pc.toNat > 0xFFE)) = true := by decide
theorem witness_CallPushesOrOverflows :
    (atDepth 0x2300 16).sp.toNat = 16 ∧ (atDepth 0x2300 15).sp.toNat < 16 ∧ (atDepth 0x2300 0).sp.toNat < 16 := by decide

theorem witness_JpSetsPc : (start 0x1FFF).mode = .running ∧ (0xFFF#12).toNat = 0xFFF := by decide
theorem witness_JpV0AddsV0 : ((start 0xBFFF).setReg 0#4 0xFF#8).mode = .running ∧
    after ((start 0xBFFF).setReg 0#4 0xFF#8) (fun t => decide (t.pc.toNat > 0xFFE)) = true := by decide

theorem witness_RegisterSkips : (sneStart .y).cfg.sneField = .y ∧ (sneStart .x).cfg.sneField = .x ∧
    (sneStart .n).cfg.sneField = .n := by decide
theorem witness_AddRegistersWithCarry : (0xE#4 : Nibble) ≠ 0xF#4 := by decide
theorem witness_SubtractionsWithNotBorrow : (0#4 : Nibble) ≠ 0xF#4 := by decide
theorem witness_ShiftsByOne : (0xE#4 : Nibble) ≠ 0xF#4 ∧ (shiftVy (start 0x8106)).cfg.shiftSource ≠ .vx := by decide

/-- DRW with the sprite byte 0x80 at I = 0x300, drawn at row 31, column 63, where the pixel is set or not. -/
def drawing (set : Bool) : State :=
  let s := (((((start 0xD011).setReg 0#4 63#8).setReg 1#4 31#8).setI 0x300#16).setByte 0x300 0x80#8)
  if set then { s with disp := s.disp.flip 31 63 } else s
theorem witness_DrwXorsTheSprite :
    (0#4 : Nibble).toNat = 0 ∧ (0xFF1#16).toNat + (0xF#4).toNat - 1 ≤ 0xFFF ∧
    0 < (0xF#4).toNat ∧ (0xFF2#16).toNat + (0xF#4).toNat - 1 > 0xFFF := by decide
theorem witness_DrwXorsTheSprite_covers :
    SpriteCovers (drawing true) 0#4 1#4 1#4 31 63 ∧ (drawing true).disp.pixel 31 63 = true :=
  ⟨⟨0, 0, by decide⟩, by decide⟩
theorem witness_DrwXorsTheSprite_no_collision : ¬ SpriteCovers (drawing false) 0#4 1#4 1#4 0 0 ∧
    ∀ r c, SpriteCovers (drawing false) 0#4 1#4 1#4 r c → (drawing false).disp.pixel r c = false := by
  refine ⟨?_, fun r c _ => ?_⟩
  · rintro ⟨j, k, hj, _, hr, _⟩
    have hv : (drawing false).val 1#4 = 31 := by decide
    have : (1#4 : Nibble).toNat = 1 := rfl
    omega
  · simp [drawing, Display.pixel, Display.blank, start, State.withFetchWord, State.readyToFetch, State.placeWord,
      State.reset, State.create, State.setReg, State.setI, State.setByte]

theorem witness_KeySkips :
    waiting.key[(waiting.setReg 0#4 15#8).val 0#4]? = some false ∧ waiting.key[(waiting.setReg 0#4 3#8).val 0#4]? = some true ∧
    15 < (waiting.setReg 0#4 16#8).val 0#4 := by decide

theorem witness_KeyWaitEntersAndCompletes :
    after { start 0xF50A with key := waiting.key } (fun t =>
      t.key[3]? == some true && t.key[0]? == some false && t.key[15]? == some false) = true := by decide

theorem witness_BcdStoresThreeDigits : (0xFFD#16).toNat + 2 ≤ 0xFFF ∧ (0xFFE#16).toNat + 2 > 0xFFF := by decide
theorem witness_BulkStore : (0xFF0#16).toNat + (0xF#4).toNat ≤ 0xFFF ∧ (0xFFF#16).toNat + (0#4).toNat ≤ 0xFFF ∧
    (0xFF1#16).toNat + (0xF#4).toNat > 0xFFF ∧ (0xFFFF#16).toNat + (0#4).toNat > 0xFFF ∧
    (0xF#4).toNat ≤ (0xF#4).toNat := by decide
theorem witness_BulkLoad : (0xFF0#16).toNat + (0xF#4).toNat ≤ 0xFFF ∧ (0xFF1#16).toNat + (0xF#4).toNat > 0xFFF ∧
    (0#4).toNat ≤ (0#4).toNat ∧ (0#4).toNat < (1#4).toNat := by decide

/-- LD [I], V1 that stores V0 and V1 at the next instruction's address. -/
theorem witness_StoredBytesAreFetchedNext :
    after ((start 0xF155).setI 0x202#16) (fun _ => true) = true ∧ ((start 0xF155).setI 0x202#16).i.toNat + (1#4).toNat ≤ 0xFFF ∧
    (0#4).toNat + 1 = (1#4).toNat ∧
    (((start 0xF155).setI 0x202#16).pc + 2#16).toNat = ((start 0xF155).setI 0x202#16).i.toNat + (0#4).toNat := by decide

/-- A fault condition of each of the four causes a handler raises, and instructions that have none. -/
theorem witness_FaultsAreRaisedAsTabulated :
    FaultCondition (.call 0x300#12) (atDepth 0x2300 16) .stackOverflow 16 ∧
    FaultCondition (.ret 0#4) (atDepth 0x00EE 0) .stackUnderflow 0 ∧
    FaultCondition (.skp 0#4) ((start 0xE09E).setReg 0#4 16#8) .keyIndexOutOfRange 16 ∧
    FaultCondition (.storeRegs 0xF#4) ((start 0xFF55).setI 0xFF1#16) .dataOutOfRange 0x1000 ∧
    (∀ cause info, ¬ FaultCondition (.jp 0#12) (start 0x1000) cause info) ∧
    (atDepth 0x2300 16).sp.toNat ≤ 16 :=
  ⟨⟨rfl, by decide⟩, ⟨rfl, by decide⟩, ⟨rfl, by decide⟩, ⟨rfl, by decide, by decide, by decide, fun b _ h => by omega⟩, fun _ _ h => h, by decide⟩

theorem witness_FaultsArePrecise : (start 0x00EE).mode = .running ∧
    after (start 0x00EE) (fun t => t.mode == .faulted) = true ∧
    after (endOfMemory 0xFFF#16) (fun t => t.mode == .faulted) = true := by decide

/-- One call deep, with two bytes listed. -/
def nested : State := { start 0x00EE with sp := 1#8, stack := Vector.replicate 16 0x206#16 }
theorem nested_inv : nested.Inv where
  memory := by decide
  stack := by decide
  waiting := by decide
  faulted := by decide
  record := fun r h => by cases h
  pc := by decide
  slots := fun j w hj h => by
    have hj : j < 1 := hj
    obtain rfl : j = 0 := by omega
    obtain rfl : 0x206#16 = w := by simpa [nested, State.slot?] using h
    decide
theorem witness_StepKeepsTheInvariant : nested.Inv ∧ after nested (fun t => t.pc == 0x206#16) = true := ⟨nested_inv, by decide⟩
theorem witness_HostOperationsKeepTheInvariant : nested.Inv ∧ (perform .cycle nested).1 = .ok := ⟨nested_inv, by decide⟩
theorem witness_ReachableStatesMeetR44_and_NeverStop :
    Reachable (perform .cycle (perform (.load [0xF5#8, 0x0A#8]) (State.create Config.default 0)).2).2 :=
  .op (.op (.create _ _) _) _

theorem witness_MemoryChangesOnlyByStores :
    after (((start 0xF033).setI 0xFFD#16).setReg 0#4 255#8) (fun t => t.byteAt 0xFFF != 0#8) = true ∧
    after (((start 0xF055).setI 0xFFF#16).setReg 0#4 255#8) (fun t => t.byteAt 0xFFF != 0#8) = true := by decide

theorem witness_ComponentsChangeOnlyByTheirInstructions :
    (start 0xA300).i = 0#16 ∧ after (start 0xA300) (fun t => t.i != 0#16) = true ∧
    (start 0x2300).sp = 0#8 ∧ after (start 0x2300) (fun t => t.sp != 0#8) = true ∧
    (drawing false).disp.pixel 31 63 = false ∧ after (drawing false) (fun t => t.disp.pixel 31 63) = true ∧
    (drawing false).redraw = false ∧ after (drawing false) (fun t => t.redraw) = true := by decide

theorem witness_StepsLeaveTheHostsSide :
    after { start 0x00E0 with redraw := true, sound := true } (fun t => t.redraw && t.sound) = true := by decide

theorem witness_SoundTimerIsNeverRead :
    SameButSoundTimer { start 0x6A9D with st := 255#8 } (start 0x6A9D) ∧
    after { start 0x6A9D with st := 255#8 } (fun t => t.st == 254#8) = true := ⟨rfl, by decide⟩

theorem witness_DeadStackSlotsAreInvisible :
    SameButDeadSlots nested { nested with stack := nested.stack.set 1 0xFFFF#16 } ∧
    after nested (fun t => t.sp == 0#8) = true ∧
    (atDepth 0x2300 15).slot? 15 = some 0x1000#16 ∧
    after (atDepth 0x2300 15) (fun t => t.slot? 15 != some 0x1000#16) = true := by
  refine ⟨⟨rfl, fun j hj => ?_⟩, by decide⟩
  have hj : j < 1 := hj
  obtain rfl : j = 0 := by omega
  decide

theorem witness_LoadCopiesTheImage :
    stopped.mode = .faulted ∧ waiting.mode ≠ .faulted ∧ (List.replicate 3585 0xAA#8).length > 3584 ∧
    (List.replicate 3584 0xAA#8).length ≤ 3584 ∧ (List.replicate 3584 0xAA#8)[3583]? = some 0xAA#8 :=
  ⟨by decide, by decide, by rw [List.length_replicate]; decide, by rw [List.length_replicate],
    by rw [List.getElem?_replicate]; rfl⟩

theorem witness_KeyChangeWritesKeyAndCompletes :
    stopped.mode = .faulted ∧ (15 : Nat) < 16 ∧ waiting.mode = .awaitingKey ∧ waiting.key[15]? = some false ∧
    waiting.key[3]? = some true ∧ (start 0x1200).mode ≠ .awaitingKey := by decide

theorem witness_ClearsAndReads :
    (0xFFF : Int) + 1 - 1 ≤ 0xFFF ∧ (0xFFF : Int) + 2 - 1 > 0xFFF ∧ (0x1000 : Int) + 0 - 1 ≤ 0xFFF := by decide

theorem witness_CreationValues : 80 ≤ 80 ∧ 80 ≤ 0xFFF ∧ 0 < 16 ∧ 15 < 16 := by decide
/-- A new machine at its entry and at the last legal PC. -/
theorem witness_ZeroBytesRunAsSys :
    State.reset.mode = .running ∧ State.reset.pc.toNat + 1 ≤ 0xFFF ∧ State.reset.byteAt State.reset.pc.toNat = 0#8 ∧
    State.reset.byteAt (State.reset.pc.toNat + 1) = 0#8 ∧ (endOfMemory 0xFFE#16).pc.toNat + 1 ≤ 0xFFF ∧
    (endOfMemory 0xFFE#16).byteAt 0xFFE = 0#8 ∧ (endOfMemory 0xFFE#16).byteAt 0xFFF = 0#8 := by decide
theorem witness_UnloadedMachineRunsOffTheEnd : 0 ≤ 1792 ∧ 1792 ≤ 1792 := by decide

end Sys2Proof.Tests
end

section
/-! SUPPORT. What one handler can do, said once: the shapes of the state it leaves, the causes it raises, where the model
stops. -/

namespace Sys2Proof.StateProofs

open Sys2Proof.Machine Sys2Proof.Laws

/-- The shapes of the state that `i`'s handler leaves, begun in `s` with PC advanced. -/
inductive Effect (s : State) : Instr → State → Prop where
  /-- General registers, timers and the count of draws: loads, arithmetic, bitwise, RND, the timer transfers and SYS. -/
  | regs {i} (v : Vector Byte 16) (dt st : Byte) (draws : Nat) :
      Effect s i { s with v := v, dt := dt, st := st, draws := draws }
  /-- The jumps; `w` is at most 0xFFF + 0xFF. -/
  | jump {i} (w : Word) (hw : w.toNat ≤ 0x10FE) : Effect s i (s.setPc w)
  | skip {i} (c : Bool) : Effect s i (s.skipIf c)
  | wait {i} (x : Nibble) : Effect s i { s with waitX := x, keywait := true, mode := .awaitingKey }
  | cls (ign : Nibble) : Effect s (.cls ign) { s with disp := Display.blank }
  | drw (x y n : Nibble) (b : Byte) (d : Display) :
      Effect s (.drw x y n) { s.setReg regF b with disp := d, redraw := true }
  | index {i} (w : Word) (hi : (∃ nnn, i = .ldI nnn) ∨ ∃ x, i = .addI x ∨ i = .ldF x) : Effect s i (s.setI w)
  | store {i} (a : Nat) (bs : List Byte) (ha : a + bs.length ≤ memSize) : Effect s i (s.setBytes a bs)
  | storeRegs (x : Nibble) (a : Nat) (bs : List Byte) (w : Word) (ha : a + bs.length ≤ memSize) :
      Effect s (.storeRegs x) ((s.setBytes a bs).setI w)
  | loadRegs (x : Nibble) (a n : Nat) (w : Word) : Effect s (.loadRegs x) ((s.loadFirstRegs a n).setI w)
  | call (nnn : Addr12) (h : s.sp.toNat < 16) :
      Effect s (.call nnn) { s with stack := s.stack.set s.sp.toNat s.pc h, sp := s.sp + 1#8, pc := addrOperand nnn }
  | ret (ign : Nibble) (target : Word) (h0 : s.sp ≠ 0#8) (ht : s.slot? (s.sp.toNat - 1) = some target) :
      Effect s (.ret ign) { s with sp := s.sp - 1#8, pc := target }

/-- What `i`'s handler may answer in `s`: a state of one of the shapes; a fault of its own, not the fetch's; a stop with SP
above 16 (log entry 6). -/
def Answers (i : Instr) (s : State) : Handled → Prop
  | .done u => Effect s i u
  | .raised c _ => c ≠ .fetchOutOfRange
  | .stuck _ => 16 < s.sp.toNat

/-- An access that is checked first raises DataOutOfRange or lies inside MEM. -/
theorem answers_withRange {i : Instr} {s u : State} {base len : Nat}
    (h : (len = 0 ∨ base + len - 1 ≤ 0xFFF) → Effect s i u) : Answers i s (withRange base len (.done u)) := by
  by_cases hr : len = 0 ∨ base + len - 1 ≤ 0xFFF
  · rw [withRange_ok hr]; exact h hr
  · rw [withRange_bad (by omega)]; exact Cause.noConfusion

theorem answers_handleRet (ign : Nibble) (s : State) : Answers (.ret ign) s (handleRet s) := by
  unfold handleRet
  split
  · exact Cause.noConfusion
  · rename_i h0
    split
    · exact .ret ign _ h0 ‹_›
    · rename_i hn
      have hlen : 16 ≤ s.sp.toNat - 1 := by simpa [State.slot?] using hn
      exact show 16 < s.sp.toNat by omega

theorem answers_handleCall (nnn : Addr12) (s : State) : Answers (.call nnn) s (handleCall nnn s) := by
  unfold handleCall
  split
  · exact Cause.noConfusion
  · rename_i hne
    split
    · exact .call nnn ‹_›
    · have : s.sp.toNat ≠ 16 := fun h => hne (BitVec.eq_of_toNat_eq h)
      exact show 16 < s.sp.toNat by omega

theorem answers_handleSkp (x : Nibble) (s : State) : Answers (.skp x) s (handleSkp x s) := by
  unfold handleSkp
  split
  · exact Cause.noConfusion
  · exact .skip _

theorem answers_handleSknp (x : Nibble) (s : State) : Answers (.sknp x) s (handleSknp x s) := by
  unfold handleSknp
  split
  · exact Cause.noConfusion
  · exact .skip _

theorem addrOperand_toNat (nnn : Addr12) : (addrOperand nnn).toNat = nnn.toNat := by
  have := nnn.isLt
  simp only [addrOperand, BitVec.toNat_setWidth]
  omega

theorem indexedTarget_toNat (nnn : Addr12) (b : Byte) : (indexedTarget nnn b).toNat = nnn.toNat + b.toNat := by
  have := nnn.isLt
  have := b.isLt
  simp only [indexedTarget, BitVec.toNat_add, BitVec.toNat_setWidth]
  omega

/-- The inversion of all handlers. -/
theorem handlerOf_answers (i : Instr) (s : State) : Answers i s (handlerOf i s) :=
  match i with
  | .cls ign => .cls ign
  | .ret ign => answers_handleRet ign s
  | .call nnn => answers_handleCall nnn s
  | .jp nnn => .jump _ (by rw [addrOperand_toNat]; omega)
  | .jpV0 nnn => .jump _ (by rw [indexedTarget_toNat]; omega)
  | .seImm _ _ | .sneImm _ _ | .seReg _ _ _ | .sneReg _ _ _ => .skip _
  | .skp x => answers_handleSkp x s
  | .sknp x => answers_handleSknp x s
  | .sys _ | .ldImm _ _ | .addImm _ _ | .ldReg _ _ | .orReg _ _ | .andReg _ _ | .xorReg _ _ | .addReg _ _ | .subReg _ _
  | .shr _ _ | .subnReg _ _ | .shl _ _ | .rnd _ _ | .ldVxDt _ | .ldDtVx _ | .ldStVx _ => .regs _ _ _ _
  | .ldI nnn => .index _ (.inl ⟨nnn, rfl⟩)
  | .addI x => .index _ (.inr ⟨x, .inl rfl⟩)
  | .ldF x => .index _ (.inr ⟨x, .inr rfl⟩)
  | .ldVxK x => .wait x
  | .drw x y n => answers_withRange fun _ => .drw x y n _ _
  | .ldB x => answers_withRange fun h =>
    .store _ _ (by simp only [decimalDigits, List.length_cons, List.length_nil, memSize]; omega)
  | .storeRegs x => answers_withRange fun h =>
    .storeRegs x _ _ _ (by rw [length_firstRegs]; simp only [memSize]; omega)
  | .loadRegs x => answers_withRange fun _ => .loadRegs x _ _ _

theorem effect_of_done {i : Instr} {s u : State} (h : handlerOf i s = .done u) : Effect s i u := by
  have ha := handlerOf_answers i s
  rwa [h] at ha

theorem cause_ne_fetch_of_raised {i : Instr} {s : State} {c : Cause} {n : Nat} (h : handlerOf i s = .raised c n) :
    c ≠ .fetchOutOfRange := by
  have ha := handlerOf_answers i s
  rwa [h] at ha

theorem sp_gt_of_stuck {i : Instr} {s : State} {f : Fault} (h : handlerOf i s = .stuck f) : 16 < s.sp.toNat := by
  have ha := handlerOf_answers i s
  rwa [h] at ha

/-- exec's next states: the timer step after one of the shapes, or a fault of the handler's own. -/
theorem exec_effect {i : Instr} {s t : State} (h : exec i s = .next t) :
    (∃ u, Effect s.advance i u ∧ t = timerStep u) ∨
    (∃ c n, c ≠ .fetchOutOfRange ∧ t = takeFault s c (some (encode i)) n) := by
  obtain ⟨u, hu, rfl⟩ | ⟨c, n, hc, rfl⟩ := exec_cases h
  · exact .inl ⟨u, effect_of_done hu, rfl⟩
  · exact .inr ⟨c, n, cause_ne_fetch_of_raised hc, rfl⟩

end Sys2Proof.StateProofs
end

section
/-! SUPPORT. The invariant of reachable states (spec/10_state.md R44, R27; spec/41_control_flow.md R162; spec/60_exceptions.md
R342), kept by the step and by every host operation. -/

namespace Sys2Proof.StateProofs

open Sys2Proof.Machine Sys2Proof.Laws

/-! ## The parts of the invariant that a handler can touch -/

variable {i : Instr} {s t u : State}

theorem Effect.wf (he : Effect s i u) (hs : Memory.wf s.cfg s.mem = true) : Memory.wf u.cfg u.mem = true := by
  cases he with
  | store a bs ha => simpa using wf_setBytes s a bs hs ha
  | storeRegs x a bs w ha => simpa using wf_setBytes s a bs hs ha
  | _ => simpa using hs

theorem Effect.sp_le (he : Effect s i u) (hs : s.sp.toNat ≤ 16) : u.sp.toNat ≤ 16 := by
  cases he with
  | call nnn h => simp only [BitVec.toNat_add, BitVec.toNat_ofNat]; omega
  | ret ign target h0 ht => bv_omega
  | _ => simpa using hs

/-- Every live slot holds a return address in 0x002–0x1000. -/
def LiveSlots (s : State) : Prop := ∀ j w, j < s.sp.toNat → s.slot? j = some w → 0x002 ≤ w.toNat ∧ w.toNat ≤ 0x1000

theorem LiveSlots.congr (hs : LiveSlots s) (hsp : t.sp = s.sp) (hst : t.stack = s.stack) : LiveSlots t := by
  intro j w hj hw
  exact hs j w (by rwa [hsp] at hj) (by rwa [State.slot?, hst] at hw)

theorem Effect.liveSlots (he : Effect s i u) (hpc : 0x002 ≤ s.pc.toNat ∧ s.pc.toNat ≤ 0x1000) (hs : LiveSlots s) :
    LiveSlots u := by
  cases he with
  | call nnn h =>
    intro j w hj hw
    have hsp : (s.sp + 1#8).toNat = s.sp.toNat + 1 := by bv_omega
    simp only [hsp] at hj
    simp only [State.slot?, Vector.getElem?_set] at hw
    split at hw
    · obtain rfl := Option.some.inj hw; exact hpc
    · exact hs j w (by omega) hw
  | ret ign target h0 ht =>
    intro j w hj hw
    have hsp : (s.sp - 1#8).toNat = s.sp.toNat - 1 := by bv_omega
    simp only [hsp] at hj
    exact hs j w (by omega) hw
  | _ => exact hs.congr (by simp) (by simp)

/-- A handler leaves PC at most at the highest target of JP V0. -/
theorem Effect.pc_le (he : Effect s i u) (hpc : s.pc.toNat ≤ 0x1000) (hs : LiveSlots s) : u.pc.toNat ≤ 0x10FE := by
  cases he with
  | jump w hw => exact hw
  | skip c => rw [skipIf_pc]; split <;> bv_omega
  | call nnn h => simp only [addrOperand_toNat]; omega
  | ret ign target h0 ht =>
    have := hs _ target (by bv_omega) ht
    simp only; omega
  | _ => simp only [setReg_pc, setI_pc, setBytes_pc, loadFirstRegs_pc]; omega

/-! ## Ways to keep the invariant -/

/-- MODE, KEYWAIT and FAULT unchanged, and the rest of the invariant kept: the fault's PC stays too. -/
theorem inv_of_sameEngine (hs : s.Inv) (hmem : Memory.wf t.cfg t.mem = true) (hmode : t.mode = s.mode)
    (hkw : t.keywait = s.keywait) (hf : t.fault = s.fault) (hpc : t.pc = s.pc) (hsp : t.sp = s.sp)
    (hst : t.stack = s.stack) : t.Inv where
  memory := hmem
  stack := by rw [hsp]; exact hs.stack
  waiting := by rw [hmode, hkw]; exact hs.waiting
  faulted := by rw [hmode, hf]; exact hs.faulted
  record := by rw [hf, hpc]; exact hs.record
  pc := by rw [hpc]; exact hs.pc
  slots := LiveSlots.congr hs.slots hsp hst

/-- With no fault recorded, an engine that runs, or that waits with KEYWAIT set. -/
theorem inv_of_unfaulted (hmem : Memory.wf t.cfg t.mem = true) (hsp : t.sp.toNat ≤ 16) (hf : t.fault = none)
    (hmode : t.mode = .running ∧ t.keywait = false ∨ t.mode = .awaitingKey ∧ t.keywait = true)
    (hpc : t.pc.toNat ≤ 0x10FE) (hst : LiveSlots t) : t.Inv where
  memory := hmem
  stack := hsp
  waiting := by obtain ⟨hm, hk⟩ | ⟨hm, hk⟩ := hmode <;> simp [hm, hk]
  faulted := by obtain ⟨hm, -⟩ | ⟨hm, -⟩ := hmode <;> simp [hm, hf]
  record := by simp [hf]
  pc := hpc
  slots := hst

/-- In Running no wait is on and no fault is recorded. -/
theorem running_quiet (hs : s.Inv) (hm : s.mode = .running) : s.keywait = false ∧ s.fault = none := by
  have hw := hs.waiting
  have hf := hs.faulted
  simp only [hm, reduceCtorEq, false_iff, Bool.not_eq_true, not_not] at hw hf
  exact ⟨hw, hf⟩

/-- Taking a fault in Running (R342): only the fetch fault has no word. -/
theorem takeFault_inv (hs : s.Inv) (hm : s.mode = .running) (c : Cause) (w : Option Word) (n : Nat)
    (hw : w = none ↔ c = .fetchOutOfRange) : (takeFault s c w n).Inv where
  memory := hs.memory
  stack := hs.stack
  waiting := by simp [(running_quiet hs hm).1]
  faulted := by simp
  record := by
    intro r hr
    obtain rfl : (⟨c, s.pc, w, n⟩ : FaultRecord) = r := by simpa using hr
    exact ⟨rfl, hw⟩
  pc := hs.pc
  slots := hs.slots

/-- A cycle that fetched advances PC into 0x002–0x1000 (R27). -/
theorem advance_pc_bounds (hp : s.pc.toNat + 1 ≤ 0xFFF) : 0x002 ≤ s.advance.pc.toNat ∧ s.advance.pc.toNat ≤ 0x1000 := by
  rw [advance_pc]; constructor <;> bv_omega

/-- A handler that completes, begun in Running, keeps the invariant. -/
theorem timerStep_inv_of_done (hs : s.Inv) (hm : s.mode = .running) (hp : s.pc.toNat + 1 ≤ 0xFFF)
    (hu : handlerOf i s.advance = .done u) : (timerStep u).Inv := by
  have he := effect_of_done hu
  obtain ⟨hlo, hhi⟩ := advance_pc_bounds hp
  obtain ⟨hk, hf⟩ := running_quiet hs hm
  have hslots : LiveSlots s.advance := LiveSlots.congr hs.slots rfl rfl
  obtain ⟨-, -, hfault, -, -, hmode⟩ := handler_keeps i _ _ hu
  simp only [advance_mode, advance_keywait, advance_fault, hm, hk, hf] at hfault hmode
  exact inv_of_unfaulted (he.wf hs.memory) (he.sp_le hs.stack) hfault hmode (he.pc_le hhi hslots)
    (he.liveSlots ⟨hlo, hhi⟩ hslots)

/-- One instruction, begun in Running with its word fetched, keeps the invariant. -/
theorem exec_inv (hs : s.Inv) (hm : s.mode = .running) (hp : s.pc.toNat + 1 ≤ 0xFFF) (h : exec i s = .next t) : t.Inv := by
  obtain ⟨u, hu, rfl⟩ | ⟨c, n, hc, rfl⟩ := exec_cases h
  · exact timerStep_inv_of_done hs hm hp hu
  · exact takeFault_inv hs hm c _ n (by simp [cause_ne_fetch_of_raised hc])

/-- A word with no handler is SYS to the state (R125). -/
theorem exec_sys_eq_noHandlerCycle (s : State) (nnn : Addr12) : exec (.sys nnn) s = .next (noHandlerCycle s) := rfl

/-- Settles O39: a step holds, faults at the fetch, executes one instruction, or runs a word with no handler. -/
theorem stepKeepsTheInvariant : Obligations.StepKeepsTheInvariant := by
  intro s t hs h
  obtain ⟨-, rfl⟩ | ⟨hm, -, rfl⟩ | ⟨w, i, hm, hp, -, -, hx⟩ | ⟨w, hm, hp, -, -, rfl⟩ := step_cases h
  · exact hs
  · exact takeFault_inv hs hm _ _ _ (by simp)
  · exact exec_inv hs hm hp hx
  · exact exec_inv hs hm hp (exec_sys_eq_noHandlerCycle s 0#12)

/-! ## The host's operations -/

/-- The state after the host's Cycle: unchanged, or the step's. -/
theorem cycleReply_state (s : State) : (cycleReply s).2 = s ∨ step s = .next (cycleReply s).2 := by
  unfold cycleReply
  split
  · exact .inl rfl
  · exact .inl rfl
  · rename_i t ht
    right
    rw [ht]
    split
    · rfl
    · split <;> rfl
    · rfl

theorem create_inv (cfg : Config) (rng : Nat) : (State.create cfg rng).Inv :=
  inv_of_unfaulted (wf_create cfg rng) (Nat.zero_le 16) rfl (.inl ⟨rfl, rfl⟩) (show 0x200 ≤ 0x10FE by omega)
    (fun j _ hj _ => absurd hj (Nat.not_lt_zero j))

/-- Load stores inside MEM, so the canonical form stays (R131, R132). -/
theorem loadImage_inv (image : List Byte) (hs : s.Inv) : (loadImage image s).2.Inv := by
  unfold loadImage
  split
  · exact hs
  · split
    · exact hs
    · rename_i hlen
      simp only [progMax] at hlen
      have hmem := wf_setBytes s progBase image hs.memory (by simp only [progBase, memSize]; omega)
      exact inv_of_sameEngine hs (by simpa using hmem) (by simp) (by simp) (by simp) (by simp) (by simp) (by simp)

theorem setKey_inv (k : Nat) (p : Bool) (h : k < 16) (hs : s.Inv) : (s.setKey k p h).Inv :=
  inv_of_sameEngine hs hs.memory rfl rfl rfl rfl rfl rfl

/-- Completing a wait ends KEYWAIT and AwaitingKey together (R134). -/
theorem completeKeyWait_inv (k : Nat) (hs : s.Inv) (hm : s.mode = .awaitingKey) : (s.completeKeyWait k).Inv := by
  have hf : s.fault = none := by simpa [hm] using hs.faulted
  exact inv_of_unfaulted hs.memory hs.stack hf (.inl ⟨rfl, rfl⟩) hs.pc hs.slots

theorem keyChange_inv (k : Nat) (pressed : Bool) (hs : s.Inv) : (keyChange k pressed s).2.Inv := by
  unfold keyChange
  split
  · exact hs
  · split
    · rename_i hk
      split
      · rename_i hc
        exact completeKeyWait_inv k (setKey_inv k pressed hk hs) hc.1
      · exact setKey_inv k pressed hk hs
    · exact hs

theorem readMemory_state (addr len : Nat) (s : State) : (readMemory addr len s).2 = s := by
  unfold readMemory; split <;> rfl

/-- Settles O40: one case an operation. -/
theorem hostOperationsKeepTheInvariant : Obligations.HostOperationsKeepTheInvariant := by
  intro s op hs
  cases op with
  | create cfg rng => exact create_inv cfg rng
  | load image => exact loadImage_inv image hs
  | cycle =>
    obtain h | h := cycleReply_state s
    · exact h.symm ▸ hs
    · exact stepKeepsTheInvariant s _ hs h
  | keyChange k pressed => exact keyChange_inv k pressed hs
  | clearRedraw => exact inv_of_sameEngine hs hs.memory rfl rfl rfl rfl rfl rfl
  | clearSound => exact inv_of_sameEngine hs hs.memory rfl rfl rfl rfl rfl rfl
  | readMemory addr len => exact (readMemory_state addr len s).symm ▸ hs
  | readDisplay | readRegisters | readKeypad | readStatus => exact hs

/-! ## Reachable states -/

/-- Settles O38: nothing is listed in MEM, no slot is live, and the engine runs. -/
theorem creationMeetsTheInvariant : Obligations.CreationMeetsTheInvariant :=
  ⟨create_inv, create_inv _ _⟩

theorem reachable_inv (h : Reachable s) : s.Inv := by
  induction h with
  | create cfg rng => exact create_inv cfg rng
  | op _ o ih => exact hostOperationsKeepTheInvariant _ o ih

/-- Settles O41: the bounds on registers and timers are their types', the rest is the invariant. -/
theorem reachableStatesMeetR44 : Obligations.ReachableStatesMeetR44 := by
  intro s hr
  have hs := reachable_inv hr
  exact ⟨fun x => Nat.le_of_lt_succ (s.reg x).isLt, Nat.le_of_lt_succ s.dt.isLt, Nat.le_of_lt_succ s.st.isLt, hs.stack,
    hs.waiting, hs.faulted.symm⟩

/-- With SP at most 16 no instruction stops the model (log entry 6). -/
theorem exec_isNext (i : Instr) (hsp : s.sp.toNat ≤ 16) : ∃ t, exec i s = .next t := by
  cases hu : handlerOf i s.advance with
  | done u => exact ⟨_, exec_done hu⟩
  | raised c n => exact ⟨_, exec_raised hu⟩
  | stuck f =>
    have : 16 < s.advance.sp.toNat := sp_gt_of_stuck hu
    rw [advance_sp] at this
    omega

/-- With SP at most 16 a Cycle in Running answers a next state. -/
theorem runningCycle_isNext (hsp : s.sp.toNat ≤ 16) : ∃ t, runningCycle s = .next t := by
  unfold runningCycle
  split
  · exact ⟨_, rfl⟩
  · split
    · exact exec_isNext _ hsp
    · exact ⟨_, rfl⟩

/-- Settles O42, by the mode the step begins in. -/
theorem reachableStatesNeverStop : Obligations.ReachableStatesNeverStop := by
  intro s hr
  unfold step cycle
  cases hm : s.mode with
  | faulted => exact .inl ⟨rfl, rfl⟩
  | awaitingKey => exact .inr ⟨s, rfl⟩
  | running => exact .inr (runningCycle_isNext (reachable_inv hr).stack)

end Sys2Proof.StateProofs
end

section
/-! SUPPORT. Which components an instruction and a step can change (spec/10_state.md R24, R29, R31, R34–R37, R42), and the values
at creation (R20). -/

namespace Sys2Proof.StateProofs

open Sys2Proof.Machine Sys2Proof.Laws

/-! ## One component at a time, after a handler -/

variable {i : Instr} {s t u : State}

theorem Effect.index_eq (he : Effect s i u) :
    u.i = s.i ∨ (∃ nnn, i = .ldI nnn) ∨ ∃ x, i = .addI x ∨ i = .ldF x ∨ i = .storeRegs x ∨ i = .loadRegs x := by
  cases he with
  | index w hi =>
    obtain h | ⟨x, h | h⟩ := hi
    · exact .inr (.inl h)
    · exact .inr (.inr ⟨x, .inl h⟩)
    · exact .inr (.inr ⟨x, .inr (.inl h)⟩)
  | storeRegs x => exact .inr (.inr ⟨x, by simp⟩)
  | loadRegs x => exact .inr (.inr ⟨x, by simp⟩)
  | _ => exact .inl (by simp)

theorem Effect.stack_eq (he : Effect s i u) :
    (u.sp = s.sp ∧ u.stack = s.stack) ∨ (∃ nnn, i = .call nnn) ∨ ∃ ign, i = .ret ign := by
  cases he with
  | call nnn => exact .inr (.inl ⟨nnn, rfl⟩)
  | ret ign => exact .inr (.inr ⟨ign, rfl⟩)
  | _ => exact .inl (by simp)

/-- A push writes the slot at SP alone, and no other instruction writes a slot: a pop does not clear its own (R31). -/
theorem Effect.slot_eq (he : Effect s i u) (j : Nat) :
    u.slot? j = s.slot? j ∨ (∃ nnn, i = .call nnn) ∧ j = s.sp.toNat := by
  cases he with
  | call nnn h =>
    by_cases hj : s.sp.toNat = j
    · exact .inr ⟨⟨nnn, rfl⟩, hj.symm⟩
    · exact .inl (by simp [State.slot?, hj])
  | _ => exact .inl (by simp [State.slot?])

theorem Effect.disp_eq (he : Effect s i u) : u.disp = s.disp ∨ (∃ ign, i = .cls ign) ∨ ∃ x y n, i = .drw x y n := by
  cases he with
  | cls ign => exact .inr (.inl ⟨ign, rfl⟩)
  | drw x y n => exact .inr (.inr ⟨x, y, n, rfl⟩)
  | _ => exact .inl (by simp)

theorem Effect.redraw_eq (he : Effect s i u) : u.redraw = s.redraw ∨ u.redraw = true ∧ ∃ x y n, i = .drw x y n := by
  cases he with
  | drw x y n => exact .inr ⟨rfl, x, y, n, rfl⟩
  | _ => exact .inl (by simp)

/-! ## After the whole cycle -/

/-- Settles O44: a fault changes none of the components, and the timer step after a handler none. -/
theorem componentsChangeOnlyByTheirInstructions : Obligations.ComponentsChangeOnlyByTheirInstructions := by
  intro i s t h
  obtain ⟨u, he, rfl⟩ | ⟨c, n, -, rfl⟩ := exec_effect h
  · refine ⟨he.index_eq.resolve_left, fun hne => he.stack_eq.resolve_left fun ⟨hsp, hst⟩ => hne ⟨hsp, fun j => ?_⟩,
      he.disp_eq.resolve_left, he.redraw_eq.resolve_left⟩
    simp [State.slot?, hst]
  · exact ⟨fun hne => absurd rfl hne, fun hne => absurd ⟨rfl, fun _ => rfl⟩ hne, fun hne => absurd rfl hne,
      fun hne => absurd rfl hne⟩

/-- What the host alone writes, after one instruction. -/
theorem exec_keeps_hostSide (h : exec i s = .next t) :
    t.key = s.key ∧ t.cfg = s.cfg ∧ (s.redraw = true → t.redraw = true) ∧ (s.sound = true → t.sound = true) := by
  obtain ⟨u, hu, rfl⟩ | ⟨c, n, -, rfl⟩ := exec_cases h
  · obtain ⟨hkey, hcfg, -, hsound, hredraw, -⟩ := handler_keeps i _ _ hu
    exact ⟨hkey, hcfg, hredraw, fun hs => by simp [hsound, hs]⟩
  · exact ⟨rfl, rfl, id, id⟩

/-- Settles O45: a word with no handler is SYS to the state. -/
theorem stepsLeaveTheHostsSide : Obligations.StepsLeaveTheHostsSide := by
  intro s t h
  obtain ⟨-, rfl⟩ | ⟨-, -, rfl⟩ | ⟨w, i, -, -, -, -, hx⟩ | ⟨w, -, -, -, -, rfl⟩ := step_cases h
  · exact ⟨rfl, rfl, id, id⟩
  · exact ⟨rfl, rfl, id, id⟩
  · exact exec_keeps_hostSide hx
  · exact exec_keeps_hostSide (exec_sys_eq_noHandlerCycle s 0#12)

/-! ## Creation (R20) -/

/-- Glyph g of FONT stands at g × 5 (spec/20_memory.md R64). -/
theorem creationByte_glyph (cfg : Config) (g : Fin 16) (j : Fin 5) : cfg.creationByte (g * 5 + j) = cfg.font[g][j] := by
  have hg : (g.val * 5 + j.val) / 5 = g.val := by omega
  have hj : (g.val * 5 + j.val) % 5 = j.val := by omega
  simp only [Config.creationByte, hg, hj]
  rw [dif_pos (by omega)]
  rfl

theorem creationByte_of_ge (cfg : Config) {a : Nat} (ha : 80 ≤ a) : cfg.creationByte a = 0#8 := dif_neg (by omega)

/-- Settles O51: the state is `State.create`, whose memory reads as the creation bytes. -/
theorem creationValues : Obligations.CreationValues := by
  intro cfg rng s
  refine ⟨State.create cfg rng, rfl, creationByte_glyph cfg, fun a => creationByte_of_ge cfg, ?_, rfl, rfl, rfl, ?_, rfl, rfl,
    pixel_blank, ?_, rfl, rfl, rfl, rfl, rfl, rfl, rfl⟩
  · intro x; exact Vector.getElem_replicate _
  · intro j hj; simp [State.create, State.slot?, hj]
  · intro k hk; simp [State.create, hk]

end Sys2Proof.StateProofs
end

section
/-! SUPPORT. Two runs side by side: a relation of states that no step can tell apart, and the two relations of the spec's rules on
ST (spec/10_state.md R33) and on slots at or above SP (R31). -/

namespace Sys2Proof.StateProofs

open Sys2Proof.Machine Sys2Proof.Laws

/-! ## A handler between two unread components -/

/-- `s` with another STACK, ST and SOUND: what only CALL, RET and LD ST touch. -/
def withUnread (stack : Vector Word 16) (st : Byte) (sound : Bool) (s : State) : State :=
  { s with stack := stack, st := st, sound := sound }

theorem withUnread_self (s : State) : withUnread s.stack s.st s.sound s = s := rfl

section
variable (k : Vector Word 16) (b : Byte) (p : Bool) (s : State)

@[simp] theorem withUnread_sp : (withUnread k b p s).sp = s.sp := rfl
@[simp] theorem withUnread_mode : (withUnread k b p s).mode = s.mode := rfl
@[simp] theorem withUnread_key : (withUnread k b p s).key = s.key := rfl
@[simp] theorem withUnread_reg (x : Nibble) : (withUnread k b p s).reg x = s.reg x := rfl
@[simp] theorem withUnread_keyNumbered (d : Byte) : (withUnread k b p s).keyNumbered d = s.keyNumbered d := rfl
@[simp] theorem withUnread_bytesAt (a n : Nat) : (withUnread k b p s).bytesAt a n = s.bytesAt a n :=
  bytesAt_congr (s := s) (t := withUnread k b p s) rfl rfl a n

end

/-- The completed answer with `f` applied to its state. -/
def mapDone (f : State → State) : Handled → Handled
  | .done u => .done (f u)
  | .raised c n => .raised c n
  | .stuck r => .stuck r

/-- `i` is none of CALL, RET and LD ST. -/
def LeavesUnread : Instr → Prop
  | .call _ | .ret _ | .ldStVx _ => False
  | _ => True

section
variable (k : Vector Word 16) (b : Byte) (p : Bool)

theorem mapDone_withRange (f : State → State) (base len : Nat) (h : Handled) :
    mapDone f (withRange base len h) = withRange base len (mapDone f h) := by
  unfold withRange
  split <;> rfl

theorem skipIf_withUnread (s : State) (c : Bool) : (withUnread k b p s).skipIf c = withUnread k b p (s.skipIf c) := by
  cases c <;> rfl

theorem setBytes_withUnread (s : State) (a : Nat) (bs : List Byte) :
    (withUnread k b p s).setBytes a bs = withUnread k b p (s.setBytes a bs) := by
  induction bs generalizing s a with
  | nil => rfl
  | cons d bs ih => exact ih (s.setByte a d) (a + 1)

theorem loadFirstRegs_withUnread (s : State) (a n : Nat) :
    (withUnread k b p s).loadFirstRegs a n = withUnread k b p (s.loadFirstRegs a n) := by
  induction n with
  | zero => rfl
  | succ n ih => simp only [State.loadFirstRegs, ih]; rfl

theorem sprite_withUnread (s : State) (x y n : Nibble) : (withUnread k b p s).sprite x y n = s.sprite x y n := by
  simp only [State.sprite, withUnread_reg, withUnread_bytesAt]
  rfl

theorem handleSkp_withUnread (s : State) (x : Nibble) :
    handleSkp x (withUnread k b p s) = mapDone (withUnread k b p) (handleSkp x s) := by
  simp only [handleSkp, withUnread_reg, withUnread_keyNumbered, skipIf_withUnread]
  split <;> rfl

theorem handleSknp_withUnread (s : State) (x : Nibble) :
    handleSknp x (withUnread k b p s) = mapDone (withUnread k b p) (handleSknp x s) := by
  simp only [handleSknp, withUnread_reg, withUnread_keyNumbered, skipIf_withUnread]
  split <;> rfl

theorem handleDrw_withUnread (s : State) (x y n : Nibble) :
    handleDrw x y n (withUnread k b p s) = mapDone (withUnread k b p) (handleDrw x y n s) := by
  simp only [handleDrw, mapDone_withRange, sprite_withUnread]
  rfl

theorem handleLdB_withUnread (s : State) (x : Nibble) :
    handleLdB x (withUnread k b p s) = mapDone (withUnread k b p) (handleLdB x s) := by
  simp only [handleLdB, mapDone_withRange, setBytes_withUnread]
  rfl

theorem handleStoreRegs_withUnread (s : State) (x : Nibble) :
    handleStoreRegs x (withUnread k b p s) = mapDone (withUnread k b p) (handleStoreRegs x s) := by
  simp only [handleStoreRegs, mapDone_withRange, setBytes_withUnread]
  rfl

theorem handleLoadRegs_withUnread (s : State) (x : Nibble) :
    handleLoadRegs x (withUnread k b p s) = mapDone (withUnread k b p) (handleLoadRegs x s) := by
  simp only [handleLoadRegs, mapDone_withRange, loadFirstRegs_withUnread]
  rfl

/-- Every handler but the three neither reads nor writes STACK, ST and SOUND: it commutes with exchanging them. -/
theorem handlerOf_withUnread (s : State) (i : Instr) (hi : LeavesUnread i) :
    handlerOf i (withUnread k b p s) = mapDone (withUnread k b p) (handlerOf i s) :=
  match i with
  | .call _ | .ret _ | .ldStVx _ => hi.elim
  | .seImm _ _ | .sneImm _ _ | .seReg _ _ _ | .sneReg _ _ _ => congrArg Handled.done (skipIf_withUnread k b p s _)
  | .skp x => handleSkp_withUnread k b p s x
  | .sknp x => handleSknp_withUnread k b p s x
  | .drw x y n => handleDrw_withUnread k b p s x y n
  | .ldB x => handleLdB_withUnread k b p s x
  | .storeRegs x => handleStoreRegs_withUnread k b p s x
  | .loadRegs x => handleLoadRegs_withUnread k b p s x
  | .cls _ | .sys _ | .jp _ | .ldImm _ _ | .addImm _ _ | .ldReg _ _ | .orReg _ _ | .andReg _ _ | .xorReg _ _ | .addReg _ _
  | .subReg _ _ | .shr _ _ | .subnReg _ _ | .shl _ _ | .ldI _ | .jpV0 _ | .rnd _ _ | .ldVxDt _ | .ldVxK _ | .ldDtVx _
  | .addI _ | .ldF _ => rfl

/-- Exchanging the components for themselves: such a handler leaves them. -/
theorem unread_kept {i : Instr} {s u : State} (hi : LeavesUnread i) (h : handlerOf i s = .done u) :
    u.stack = s.stack ∧ u.st = s.st ∧ u.sound = s.sound := by
  have hself := handlerOf_withUnread s.stack s.st s.sound s i hi
  rw [withUnread_self, h] at hself
  have hu : u = withUnread s.stack s.st s.sound u := Handled.done.inj hself
  rw [hu]
  exact ⟨rfl, rfl, rfl⟩

end

/-! ## A relation no step can tell apart -/

section
variable (R : State → State → Prop)

/-- Two handlers end alike, in related states. -/
inductive HandledRel : Handled → Handled → Prop where
  | done {u u' : State} (h : R u u') : HandledRel (.done u) (.done u')
  | raised (c : Cause) (n : Nat) : HandledRel (.raised c n) (.raised c n)
  | stuck (f : Fault) : HandledRel (.stuck f) (.stuck f)

/-- Two steps end alike, in related states. -/
inductive OutcomeRel : Host.Outcome State Fault Refusal → Host.Outcome State Fault Refusal → Prop where
  | next {t t' : State} (h : R t t') : OutcomeRel (.next t) (.next t')
  | fault (f : Fault) : OutcomeRel (.fault f) (.fault f)
  | refused (r : Refusal) : OutcomeRel (.refused r) (.refused r)

/-- `R` is blind to steps: related states differ at most in STACK, ST and SOUND, it is SP and these three alone that `R` asks
for, and what touches the three keeps states related. -/
structure StepBlind : Prop where
  differ {s s' : State} : R s s' → ∃ k b p, s' = withUnread k b p s
  transport {s u : State} {k : Vector Word 16} {b : Byte} {p : Bool} : R s (withUnread k b p s) →
    u.sp = s.sp → u.stack = s.stack → u.st = s.st → u.sound = s.sound → R u (withUnread k b p u)
  timerStep {s s' : State} : R s s' → R (timerStep s) (timerStep s')
  ret {s s' : State} : R s s' → HandledRel R (handleRet s) (handleRet s')
  call {s s' : State} (nnn : Addr12) : R s s' → HandledRel R (handleCall nnn s) (handleCall nnn s')
  ldStVx {s s' : State} (x : Nibble) : R s s' → HandledRel R (handleLdStVx x s) (handleLdStVx x s')

end

section
variable {R : State → State → Prop} (hR : StepBlind R) {s s' : State}
include hR

theorem StepBlind.mode_eq (h : R s s') : s'.mode = s.mode := by
  obtain ⟨k, b, p, rfl⟩ := hR.differ h; rfl

theorem StepBlind.fault_eq (h : R s s') : s'.fault = s.fault := by
  obtain ⟨k, b, p, rfl⟩ := hR.differ h; rfl

theorem StepBlind.pc_eq (h : R s s') : s'.pc = s.pc := by
  obtain ⟨k, b, p, rfl⟩ := hR.differ h; rfl

theorem StepBlind.fetch_eq (h : R s s') : s'.fetch = s.fetch := by
  obtain ⟨k, b, p, rfl⟩ := hR.differ h; rfl

theorem StepBlind.advance (h : R s s') : R s.advance s'.advance := by
  obtain ⟨k, b, p, rfl⟩ := hR.differ h
  exact hR.transport h rfl rfl rfl rfl

theorem StepBlind.takeFault (c : Cause) (w : Option Word) (n : Nat) (h : R s s') :
    R (takeFault s c w n) (takeFault s' c w n) := by
  obtain ⟨k, b, p, rfl⟩ := hR.differ h
  exact hR.transport h rfl rfl rfl rfl

/-- A handler that touches none of the three ends alike, and the difference stays what it was. -/
theorem StepBlind.handler_of_leavesUnread {i : Instr} (hi : LeavesUnread i) (h : R s s') :
    HandledRel R (handlerOf i s) (handlerOf i s') := by
  obtain ⟨k, b, p, rfl⟩ := hR.differ h
  rw [handlerOf_withUnread k b p s i hi]
  cases hu : handlerOf i s with
  | done u =>
    obtain ⟨hstack, hst, hsound⟩ := unread_kept hi hu
    have hsp : u.sp = s.sp := by
      obtain ⟨hsp, -⟩ | ⟨nnn, rfl⟩ | ⟨ign, rfl⟩ := (effect_of_done hu).stack_eq
      · exact hsp
      · exact hi.elim
      · exact hi.elim
    exact .done (hR.transport h hsp hstack hst hsound)
  | raised c n => exact .raised c n
  | stuck f => exact .stuck f

theorem StepBlind.handler (i : Instr) (h : R s s') : HandledRel R (handlerOf i s) (handlerOf i s') :=
  match i with
  | .ret _ => hR.ret h
  | .call nnn => hR.call nnn h
  | .ldStVx x => hR.ldStVx x h
  | .cls _ | .sys _ | .jp _ | .seImm _ _ | .sneImm _ _ | .seReg _ _ _ | .ldImm _ _ | .addImm _ _ | .ldReg _ _ | .orReg _ _
  | .andReg _ _ | .xorReg _ _ | .addReg _ _ | .subReg _ _ | .shr _ _ | .subnReg _ _ | .shl _ _ | .sneReg _ _ _ | .ldI _
  | .jpV0 _ | .rnd _ _ | .drw _ _ _ | .skp _ | .sknp _ | .ldVxDt _ | .ldVxK _ | .ldDtVx _ | .addI _ | .ldF _ | .ldB _
  | .storeRegs _ | .loadRegs _ => hR.handler_of_leavesUnread trivial h

theorem StepBlind.exec (i : Instr) (h : R s s') : OutcomeRel R (exec i s) (exec i s') := by
  rw [exec_eq_runCycle, exec_eq_runCycle]
  unfold runCycle
  have hh := hR.handler i (hR.advance h)
  generalize handlerOf i s.advance = a, handlerOf i s'.advance = a' at hh ⊢
  cases hh with
  | done hu => exact .next (hR.timerStep hu)
  | raised c n => exact .next (hR.takeFault c _ n h)
  | stuck f => exact .fault f

theorem StepBlind.runningCycle (h : R s s') : OutcomeRel R (runningCycle s) (runningCycle s') := by
  unfold Machine.runningCycle
  rw [hR.fetch_eq h, hR.pc_eq h]
  split
  · exact .next (hR.takeFault _ _ _ h)
  · split
    · exact hR.exec _ h
    · exact .next (hR.timerStep (hR.advance h))

/-- The step answers related states alike. -/
theorem StepBlind.step (h : R s s') : OutcomeRel R (step s) (step s') := by
  unfold Machine.step cycle
  rw [hR.mode_eq h]
  split
  · exact .refused _
  · exact .next h
  · exact hR.runningCycle h

/-- The host's Cycle replies to related states alike. -/
theorem StepBlind.cycleReply (h : R s s') :
    (cycleReply s).1 = (cycleReply s').1 ∧ R (cycleReply s).2 (cycleReply s').2 := by
  unfold Machine.cycleReply
  rw [hR.mode_eq h]
  have hstep := hR.step h
  generalize Machine.step s = a, Machine.step s' = a' at hstep ⊢
  cases hstep with
  | fault f => exact ⟨rfl, h⟩
  | refused r => exact ⟨rfl, h⟩
  | next ht =>
    simp only [hR.mode_eq ht, hR.fault_eq ht]
    split
    · exact ⟨rfl, ht⟩
    · split <;> exact ⟨rfl, ht⟩
    · exact ⟨rfl, ht⟩

/-- Load replies to related states alike. -/
theorem StepBlind.loadImage (image : List Byte) (h : R s s') :
    (loadImage image s).1 = (loadImage image s').1 ∧ R (loadImage image s).2 (loadImage image s').2 := by
  obtain ⟨k, b, p, rfl⟩ := hR.differ h
  unfold Machine.loadImage
  rw [withUnread_mode]
  split
  · exact ⟨rfl, h⟩
  · split
    · exact ⟨rfl, h⟩
    · rw [setBytes_withUnread]
      exact ⟨rfl, hR.transport h (by simp) (by simp) (by simp) (by simp)⟩

/-- KeyChange replies to related states alike. -/
theorem StepBlind.keyChange (k : Nat) (pressed : Bool) (h : R s s') :
    (keyChange k pressed s).1 = (keyChange k pressed s').1 ∧ R (keyChange k pressed s).2 (keyChange k pressed s').2 := by
  obtain ⟨stack, b, p, rfl⟩ := hR.differ h
  unfold Machine.keyChange
  rw [withUnread_mode, withUnread_key]
  split
  · exact ⟨rfl, h⟩
  · split
    · split
      · exact ⟨rfl, hR.transport h rfl rfl rfl rfl⟩
      · exact ⟨rfl, hR.transport h rfl rfl rfl rfl⟩
    · exact ⟨rfl, h⟩

end

/-! ## ST and SOUND (R33) -/

theorem sameButSoundTimer_iff (s s' : State) : SameButSoundTimer s s' ↔ ∃ b p, s' = withUnread s.stack b p s := by
  constructor
  · intro h
    have h : withUnread s'.stack s.st s.sound s' = s := h
    exact ⟨s'.st, s'.sound, by rw [← h]; rfl⟩
  · rintro ⟨b, p, rfl⟩; rfl

theorem sameButSoundTimer_blind : StepBlind SameButSoundTimer where
  differ h := by
    obtain ⟨b, p, rfl⟩ := (sameButSoundTimer_iff _ _).1 h
    exact ⟨_, b, p, rfl⟩
  transport {s u k b p} h _ hstack _ _ := by
    have hk : k = s.stack := congrArg State.stack (show withUnread k s.st s.sound s = s from h)
    exact (sameButSoundTimer_iff _ _).2 ⟨b, p, by rw [hstack, hk]⟩
  timerStep h := by
    obtain ⟨b, p, rfl⟩ := (sameButSoundTimer_iff _ _).1 h
    exact rfl
  ret {s s'} h := by
    obtain ⟨b, p, rfl⟩ := (sameButSoundTimer_iff _ _).1 h
    unfold handleRet
    rw [withUnread_sp, show (withUnread s.stack b p s).slot? = s.slot? from rfl]
    split
    · exact .raised _ _
    · split
      · exact .done rfl
      · exact .stuck _
  call {s s'} nnn h := by
    obtain ⟨b, p, rfl⟩ := (sameButSoundTimer_iff _ _).1 h
    unfold handleCall
    rw [withUnread_sp]
    split
    · exact .raised _ _
    · split
      · exact .done rfl
      · exact .stuck _
  ldStVx x h := by
    obtain ⟨b, p, rfl⟩ := (sameButSoundTimer_iff _ _).1 h
    exact .done rfl

/-- Settles O46: the relation is blind to steps. -/
theorem soundTimerIsNeverRead : Obligations.SoundTimerIsNeverRead := by
  intro s s' t h ht
  have hstep := sameButSoundTimer_blind.step h
  rw [ht] at hstep
  generalize step s' = o at hstep
  cases hstep with
  | next hr => exact ⟨_, rfl, hr⟩

/-! ## Slots at or above SP (R31) -/

theorem sameButDeadSlots_withUnread (s : State) (k : Vector Word 16) (b : Byte) (p : Bool) :
    SameButDeadSlots s (withUnread k b p s) ↔
      b = s.st ∧ p = s.sound ∧ ∀ j, j < s.sp.toNat → k[j]? = s.stack[j]? := by
  constructor
  · rintro ⟨h, hlive⟩
    have h : withUnread s.stack b p s = s := h
    exact ⟨congrArg State.st h, congrArg State.sound h, hlive⟩
  · rintro ⟨rfl, rfl, hlive⟩
    exact ⟨rfl, hlive⟩

theorem exists_stack_of_sameButDeadSlots {s s' : State} (h : SameButDeadSlots s s') :
    ∃ k, s' = withUnread k s.st s.sound s ∧ ∀ j, j < s.sp.toNat → k[j]? = s.stack[j]? := by
  have hs : withUnread s.stack s'.st s'.sound s' = s := h.1
  exact ⟨s'.stack, by rw [← hs]; rfl, h.2⟩

/-- A pop reads the slot under SP, which is live, and leaves the slots below it live. -/
theorem handleRet_deadSlots {s s' : State} (h : SameButDeadSlots s s') :
    HandledRel SameButDeadSlots (handleRet s) (handleRet s') := by
  obtain ⟨k, rfl, hlive⟩ := exists_stack_of_sameButDeadSlots h
  unfold handleRet
  rw [withUnread_sp]
  split
  · exact .raised _ _
  · rename_i h0
    rw [show (withUnread k s.st s.sound s).slot? (s.sp.toNat - 1) = s.slot? (s.sp.toNat - 1) from hlive _ (by bv_omega)]
    split
    · refine .done ⟨rfl, fun j hj => hlive j ?_⟩
      have hj : j < (s.sp - 1#8).toNat := hj
      bv_omega
    · exact .stuck _

/-- A push writes both states' slot at SP, which is live from then on, with the same return address. -/
theorem handleCall_deadSlots (nnn : Addr12) {s s' : State} (h : SameButDeadSlots s s') :
    HandledRel SameButDeadSlots (handleCall nnn s) (handleCall nnn s') := by
  obtain ⟨k, rfl, hlive⟩ := exists_stack_of_sameButDeadSlots h
  unfold handleCall
  rw [withUnread_sp]
  split
  · exact .raised _ _
  · split
    · rename_i hlt
      refine .done ⟨rfl, fun j hj => ?_⟩
      have hj : j < (s.sp + 1#8).toNat := hj
      show (k.set s.sp.toNat s.pc hlt)[j]? = (s.stack.set s.sp.toNat s.pc hlt)[j]?
      rw [Vector.getElem?_set, Vector.getElem?_set]
      split
      · rfl
      · exact hlive j (by bv_omega)
    · exact .stuck _

theorem sameButDeadSlots_blind : StepBlind SameButDeadSlots where
  differ h := by
    obtain ⟨k, rfl, -⟩ := exists_stack_of_sameButDeadSlots h
    exact ⟨k, _, _, rfl⟩
  transport h hsp hstack hst hsound := by
    rw [sameButDeadSlots_withUnread] at h ⊢
    rw [hsp, hstack, hst, hsound]
    exact h
  timerStep h := by
    obtain ⟨k, rfl, hlive⟩ := exists_stack_of_sameButDeadSlots h
    exact ⟨rfl, hlive⟩
  ret h := handleRet_deadSlots h
  call nnn h := handleCall_deadSlots nnn h
  ldStVx x h := by
    obtain ⟨k, rfl, hlive⟩ := exists_stack_of_sameButDeadSlots h
    exact .done ⟨rfl, hlive⟩

/-- ReadMemory returns no slot (R138). -/
theorem readMemory_withUnread (k : Vector Word 16) (b : Byte) (p : Bool) (addr len : Nat) (s : State) :
    (readMemory addr len (withUnread k b p s)).1 = (readMemory addr len s).1 := by
  unfold readMemory
  rw [withUnread_bytesAt]
  split <;> rfl

/-- Every host operation answers alike, one case an operation. -/
theorem perform_deadSlots (op : HostOp) {s s' : State} (h : SameButDeadSlots s s') :
    (perform op s).1 = (perform op s').1 ∧ SameButDeadSlots (perform op s).2 (perform op s').2 := by
  obtain ⟨k, rfl, hlive⟩ := exists_stack_of_sameButDeadSlots h
  cases op with
  | create cfg rng => exact ⟨rfl, rfl, fun _ _ => rfl⟩
  | load image => exact sameButDeadSlots_blind.loadImage image h
  | cycle => exact sameButDeadSlots_blind.cycleReply h
  | keyChange j pressed => exact sameButDeadSlots_blind.keyChange j pressed h
  | clearRedraw => exact ⟨rfl, rfl, hlive⟩
  | clearSound => exact ⟨rfl, rfl, hlive⟩
  | readMemory addr len =>
    simp only [perform, readMemory_withUnread, readMemory_state]
    exact ⟨trivial, h⟩
  | readDisplay | readRegisters | readKeypad | readStatus => exact ⟨rfl, h⟩

/-- A pop does not clear its slot. -/
theorem exec_ret_stack {ign : Nibble} {s t : State} (h : exec (.ret ign) s = .next t) : t.stack = s.stack := by
  obtain ⟨u, he, rfl⟩ | ⟨c, n, -, rfl⟩ := exec_effect h
  · cases he <;> simp
  · rfl

/-- Settles O47: no operation tells dead slots apart, a pop leaves the stack, and of all effects only the push writes a slot. -/
theorem deadStackSlotsAreInvisible : Obligations.DeadStackSlotsAreInvisible := by
  refine ⟨fun s s' op => perform_deadSlots op, fun ign s t => exec_ret_stack, fun i s t j h hne => ?_⟩
  obtain ⟨u, he, rfl⟩ | ⟨c, n, -, rfl⟩ := exec_effect h
  · exact (he.slot_eq j).resolve_left hne
  · exact absurd rfl hne

end Sys2Proof.StateProofs
end

section
/-! SUPPORT. The fetch and the step in Running (spec/20_memory.md R67, R71; spec/40_engine_cycle.md R120; spec/60_exceptions.md
R342). -/

namespace Sys2Proof.MemoryProofs

open Sys2Proof.Machine Sys2Proof.Laws

variable {s : State} {i : Instr} {w : Word}

/-! ## A step in Running -/

theorem step_of_running (hm : s.mode = .running) : step s = runningCycle s := by simp [step, cycle, hm]

/-- A fetched word that decodes to an instruction runs it. -/
theorem step_of_fetch_handler (hm : s.mode = .running) (hf : s.fetch = some w) (hd : decode w = .handler i) :
    step s = exec i s := by
  rw [step_of_running hm]
  simp [runningCycle, hf, hd]

theorem step_of_fetch_none (hm : s.mode = .running) (hf : s.fetch = none) :
    step s = .next (faultedState s .fetchOutOfRange none s.pc.toNat) := by
  rw [step_of_running hm]
  simp [runningCycle, hf, takeFault, faultedState]

/-- The host's Cycle reports a fault that the step took in Running. -/
theorem cycleReply_of_step_faulted {c : Cause} {o : Option Word} {n : Nat} (hm : s.mode = .running)
    (h : step s = .next (faultedState s c o n)) : (cycleReply s).1 = .faulted c := by
  simp [cycleReply, h, hm, faultedState]

/-- Settles O7: the two bytes at PC are the word fetched. -/
theorem stepRunsTheDecodedInstruction : Obligations.StepRunsTheDecodedInstruction := by
  intro s i hm hp hd
  exact step_of_fetch_handler hm (fetch_eq_some hp) hd

/-- Settles O9: nothing is fetched, so the cycle takes the fetch fault. -/
theorem fetchPastTheTopFaults : Obligations.FetchPastTheTopFaults := by
  intro s hm hp
  have hstep := step_of_fetch_none hm (fetch_eq_none hp)
  exact ⟨hstep, cycleReply_of_step_faulted hm hstep⟩

/-! ## A placed word is the word fetched (log entry 10) -/

theorem readyToFetch_mode (s : State) : s.readyToFetch.mode = .running := by
  by_cases hm : s.mode = .running
  · simp [State.readyToFetch, apply_ite State.mode, hm]
  · simp [State.readyToFetch, apply_ite State.mode, hm]

theorem readyToFetch_pc (s : State) : s.readyToFetch.pc = if s.pc.toNat + 1 > 0xFFF then 0x200#16 else s.pc := by
  simp [State.readyToFetch, apply_ite State.pc]

theorem readyToFetch_pc_le (s : State) : s.readyToFetch.pc.toNat + 1 ≤ 0xFFF := by
  rw [readyToFetch_pc]
  split
  · exact show 0x200 + 1 ≤ 0xFFF by omega
  · omega

@[simp] theorem placeWord_mode (s : State) (w : Word) : (s.placeWord w).mode = s.mode := rfl
@[simp] theorem placeWord_pc (s : State) (w : Word) : (s.placeWord w).pc = s.pc := rfl

/-- The high byte stands at PC: the low byte's write, at PC + 1, leaves it. -/
theorem fetch_placeWord (w : Word) (hp : s.pc.toNat + 1 ≤ 0xFFF) : (s.placeWord w).fetch = some w := by
  have hhi : (s.placeWord w).byteAt s.pc.toNat = highByte w := by simp [State.placeWord, byteAt_setByte]
  have hlo : (s.placeWord w).byteAt (s.pc.toNat + 1) = lowByte w := by simp [State.placeWord, byteAt_setByte]
  rw [fetch_eq_some (by rwa [placeWord_pc]), placeWord_pc, hhi, hlo, wordOfBytes_bytes]

theorem tableWord_sixteen (w : Nat) : tableWord 16 w = BitVec.ofNat 16 w :=
  BitVec.eq_of_toNat_eq (by simp [tableWord])

/-- Settles O8: the readied state runs, at a PC that can fetch, and fetches the placed word. -/
theorem fetchWordIsRunNext : Obligations.FetchWordIsRunNext := by
  intro s w i hd
  rw [← tableWord_sixteen] at hd
  exact step_of_fetch_handler (readyToFetch_mode s) (fetch_placeWord _ (readyToFetch_pc_le s)) hd

end Sys2Proof.MemoryProofs
end

section
/-! SUPPORT. What the instructions write to memory, and when the next fetch reads it (spec/20_memory.md R62, R69, R75;
spec/70_reset_and_hazards.md R375). -/

namespace Sys2Proof.MemoryProofs

open Sys2Proof.Machine Sys2Proof.Laws

variable {i : Instr} {s t u : State} {x : Nibble}

/-! ## The two stores -/

theorem mem_range_of_setBytes_ne {a base : Nat} {bs : List Byte} (h : (s.setBytes base bs).byteAt a ≠ s.byteAt a) :
    base ≤ a ∧ a < base + bs.length := by
  by_contra hr
  exact h (by rw [byteAt_setBytes, dif_neg hr])

/-- The bulk store puts V[j] at the j-th address. -/
theorem byteAt_setBytes_firstRegs (base : Nat) {n : Nat} {j : Nibble} (hj : j.toNat < n) :
    (s.setBytes base (s.firstRegs n)).byteAt (base + j.toNat) = s.reg j := by
  rw [byteAt_setBytes, dif_pos (by rw [length_firstRegs]; omega), getElem_firstRegs]
  simp

theorem handleLdB_done (h : handleLdB x s = .done u) :
    s.i.toNat + 2 ≤ 0xFFF ∧ u = s.setBytes s.i.toNat (decimalDigits (s.reg x)) := by
  obtain ⟨hr, hu⟩ := withRange_eq_done h
  exact ⟨by omega, (Handled.done.inj hu).symm⟩

theorem handleStoreRegs_done (h : handleStoreRegs x s = .done u) :
    s.i.toNat + x.toNat ≤ 0xFFF ∧ u = (s.setBytes s.i.toNat (s.firstRegs (x.toNat + 1))).setI (s.bulkEnd x) := by
  obtain ⟨hr, hu⟩ := withRange_eq_done h
  exact ⟨by omega, (Handled.done.inj hu).symm⟩

/-! ## The other instructions -/

/-- A handler begun in `s` that completes leaves MEM. -/
def KeepsMemory (s : State) : Handled → Prop
  | .done u => u.mem = s.mem
  | .raised _ _ | .stuck _ => True

/-- `i` is neither LD B nor LD [I], Vx. -/
def StoresNothing : Instr → Prop
  | .ldB _ | .storeRegs _ => False
  | _ => True

theorem keepsMemory_withRange (base len : Nat) (hu : u.mem = s.mem) : KeepsMemory s (withRange base len (.done u)) := by
  unfold withRange
  split
  · trivial
  · exact hu

theorem keepsMemory_handleRet (s : State) : KeepsMemory s (handleRet s) := by
  unfold handleRet
  split
  · trivial
  · split
    · exact rfl
    · trivial

theorem keepsMemory_handleCall (nnn : Addr12) (s : State) : KeepsMemory s (handleCall nnn s) := by
  unfold handleCall
  split
  · trivial
  · split
    · exact rfl
    · trivial

theorem keepsMemory_handleSkp (x : Nibble) (s : State) : KeepsMemory s (handleSkp x s) := by
  unfold handleSkp
  split
  · trivial
  · exact skipIf_mem s _

theorem keepsMemory_handleSknp (x : Nibble) (s : State) : KeepsMemory s (handleSknp x s) := by
  unfold handleSknp
  split
  · trivial
  · exact skipIf_mem s _

theorem handlerOf_keepsMemory (s : State) (hi : StoresNothing i) : KeepsMemory s (handlerOf i s) :=
  match i with
  | .ldB _ | .storeRegs _ => hi.elim
  | .ret _ => keepsMemory_handleRet s
  | .call nnn => keepsMemory_handleCall nnn s
  | .seImm _ _ | .sneImm _ _ | .seReg _ _ _ | .sneReg _ _ _ => skipIf_mem s _
  | .skp x => keepsMemory_handleSkp x s
  | .sknp x => keepsMemory_handleSknp x s
  | .drw _ _ _ => keepsMemory_withRange _ _ rfl
  | .loadRegs _ => keepsMemory_withRange _ _ (loadFirstRegs_mem s _ _)
  | .cls _ | .sys _ | .jp _ | .ldImm _ _ | .addImm _ _ | .ldReg _ _ | .orReg _ _ | .andReg _ _ | .xorReg _ _ | .addReg _ _
  | .subReg _ _ | .shr _ _ | .subnReg _ _ | .shl _ _ | .ldI _ | .jpV0 _ | .rnd _ _ | .ldVxDt _ | .ldVxK _ | .ldDtVx _
  | .ldStVx _ | .addI _ | .ldF _ => rfl

theorem byteAt_of_storesNothing (h : handlerOf i s = .done u) (hi : StoresNothing i) (a : Nat) : u.byteAt a = s.byteAt a := by
  have hmem := handlerOf_keepsMemory s hi
  rw [h] at hmem
  obtain ⟨-, hcfg, -⟩ := handler_keeps i s u h
  exact byteAt_congr hmem hcfg a

/-! ## All instructions -/

/-- The addresses of the bytes that `i` stores, begun in `s`. -/
def StoresTo (i : Instr) (s : State) (a : Nat) : Prop :=
  (∃ x, i = .ldB x) ∧ s.i.toNat ≤ a ∧ a < s.i.toNat + 3 ∨
    ∃ x, i = .storeRegs x ∧ s.i.toNat ≤ a ∧ a ≤ s.i.toNat + x.toNat

/-- A byte that a handler changes is one it stores, inside MEM. -/
theorem storesTo_of_byteAt_ne {a : Nat} (h : handlerOf i s = .done u) (hne : u.byteAt a ≠ s.byteAt a) :
    StoresTo i s a ∧ a ≤ 0xFFF := by
  cases i with
  | ldB x =>
    obtain ⟨hr, rfl⟩ := handleLdB_done h
    obtain ⟨hlo, hhi⟩ := mem_range_of_setBytes_ne hne
    simp only [decimalDigits, List.length_cons, List.length_nil] at hhi
    exact ⟨.inl ⟨⟨x, rfl⟩, hlo, hhi⟩, by omega⟩
  | storeRegs x =>
    obtain ⟨hr, rfl⟩ := handleStoreRegs_done h
    rw [byteAt_setI] at hne
    obtain ⟨hlo, hhi⟩ := mem_range_of_setBytes_ne hne
    rw [length_firstRegs] at hhi
    exact ⟨.inr ⟨x, rfl, hlo, by omega⟩, by omega⟩
  | _ => exact absurd (byteAt_of_storesNothing h trivial a) hne

/-- Settles O43: a fault and the timer step leave memory, so it is the handler that changed the byte. -/
theorem memoryChangesOnlyByStores : Obligations.MemoryChangesOnlyByStores := by
  intro i s t a h hne
  obtain ⟨u, hu, rfl⟩ | ⟨c, n, -, rfl⟩ := exec_cases h
  · exact storesTo_of_byteAt_ne (s := s.advance) hu hne
  · exact absurd rfl hne

/-! ## Self-modifying code -/

/-- After LD [I], Vx the byte at I + j is V[j], and PC is past the instruction. -/
theorem exec_storeRegs_stored (h : exec (.storeRegs x) s = .next t) (hr : s.i.toNat + x.toNat ≤ 0xFFF) :
    t.pc = s.pc + 2#16 ∧ ∀ j : Nibble, j.toNat ≤ x.toNat → t.byteAt (s.i.toNat + j.toNat) = s.reg j := by
  have hu : handlerOf (.storeRegs x) s.advance = .done _ := withRange_ok (.inr hr) _
  obtain rfl := Host.Outcome.next.inj ((exec_done hu).symm.trans h)
  exact ⟨by simp, fun j hj => byteAt_setBytes_firstRegs (s := s.advance) _ (by omega)⟩

/-- Settles O34: V[j] and V[k] stand at the new PC and after it, both inside MEM. -/
theorem storedBytesAreFetchedNext : Obligations.StoredBytesAreFetchedNext := by
  intro x j k s t h hr hjk hk hpc
  obtain ⟨hpc', hbyte⟩ := exec_storeRegs_stored h hr
  rw [← hpc'] at hpc
  have hj := hbyte j (by omega)
  have hk' := hbyte k hk
  rw [← hjk, ← Nat.add_assoc] at hk'
  rw [fetch_eq_some (by omega), hpc, hj, hk']
  rfl

end Sys2Proof.MemoryProofs
end

section
/-! SUPPORT. The two levels of the decoder, and that it inverts the encoder (spec/30_encoding.md R91, R93–R100). -/

namespace Sys2Proof.EncodingProofs

open Sys2Proof.Machine Sys2Proof.Laws

variable {w w' : Word} {s t : State}

/-! ## The first level selects on op (R94, R95) -/

theorem decode_of_op0 (h : (opField w).toNat = 0x0) : decode w = decode0 w := by simp [decode, h]
theorem decode_of_op8 (h : (opField w).toNat = 0x8) : decode w = decode8 w := by simp [decode, h]
theorem decode_of_opE (h : (opField w).toNat = 0xE) : decode w = decodeE w := by simp [decode, h]
theorem decode_of_opF (h : (opField w).toNat = 0xF) : decode w = decodeF w := by simp [decode, h]

/-- The values of op whose handler the low byte selects (R95). -/
def twoLevelOps : List Nat := [0x0, 0x8, 0xE, 0xF]

theorem op_cases (w : Word) : (opField w).toNat ∉ twoLevelOps ∨ (opField w).toNat = 0x0 ∨ (opField w).toNat = 0x8 ∨
    (opField w).toNat = 0xE ∨ (opField w).toNat = 0xF := by
  simp only [twoLevelOps, List.mem_cons, List.not_mem_nil]
  tauto

/-! ## Decode of encode -/

/-- SYS is left when the low byte names neither CLS nor RET (R96). -/
theorem decode0_of_kk (h0 : kkField w ≠ 0xE0#8) (hE : kkField w ≠ 0xEE#8) : decode0 w = .handler (.sys (nnnField w)) := by
  unfold decode0
  split
  · exact absurd (BitVec.eq_of_toNat_eq ‹_›) h0
  · exact absurd (BitVec.eq_of_toNat_eq ‹_›) hE
  · rfl

theorem decode_encode_sys {nnn : Addr12} (h : (Instr.sys nnn).wellFormed = true) :
    decode (encode (.sys nnn)) = .handler (.sys nnn) := by
  simp only [Instr.wellFormed, Bool.and_eq_true, bne_iff_ne, ← kkField_wordA 0x0#4] at h
  obtain ⟨h0, hE⟩ := h
  rw [encode, decode_of_op0 (by simp), decode0_of_kk h0 hE, nnnField_wordA]

/-- Settles O2: the fields of an instruction's word are its operands (R91), read at the first level where op alone selects, else
at the second level of its op. -/
theorem decodeOfEncodeIsTheInstruction : Obligations.DecodeOfEncodeIsTheInstruction := by
  intro i hwf
  match i with
  | .sys _ => exact decode_encode_sys hwf
  | .jp _ | .call _ | .ldI _ | .jpV0 _ | .seImm _ _ | .sneImm _ _ | .ldImm _ _ | .addImm _ _ | .rnd _ _ | .seReg _ _ _
  | .sneReg _ _ _ | .drw _ _ _ => simp [encode, decode]
  | .cls _ | .ret _ => simp [encode, decode_of_op0, decode0]
  | .ldReg _ _ | .orReg _ _ | .andReg _ _ | .xorReg _ _ | .addReg _ _ | .subReg _ _ | .shr _ _ | .subnReg _ _ | .shl _ _ =>
    simp [encode, decode_of_op8, decode8]
  | .skp _ | .sknp _ => simp [encode, decode_of_opE, decodeE]
  | .ldVxDt _ | .ldVxK _ | .ldDtVx _ | .ldStVx _ | .addI _ | .ldF _ | .ldB _ | .storeRegs _ | .loadRegs _ =>
    simp [encode, decode_of_opF, decodeF]

/-! ## Encode of decode -/

/-- The answer names the word: it is the encoding of a well-formed instruction, or kept as it is. -/
def Names (w : Word) : Decoded → Prop
  | .handler i => encode i = w ∧ i.wellFormed = true
  | .noHandler v => v = w

section
variable {op x n : Nibble} {kk : Byte}

theorem wordA_of_op (hop : (opField w).toNat = op.toNat) : wordA op (nnnField w) = w := by
  rw [← BitVec.eq_of_toNat_eq hop, wordA_fields]

theorem wordXK_of_op (hop : (opField w).toNat = op.toNat) : wordXK op (xField w) (kkField w) = w := by
  rw [← BitVec.eq_of_toNat_eq hop, wordXK_fields]

theorem wordXYN_of_op (hop : (opField w).toNat = op.toNat) : wordXYN op (xField w) (yField w) (nField w) = w := by
  rw [← BitVec.eq_of_toNat_eq hop, wordXYN_fields]

theorem wordXK_of_op_kk (hop : (opField w).toNat = op.toNat) (hkk : (kkField w).toNat = kk.toNat) :
    wordXK op (xField w) kk = w := by
  rw [← BitVec.eq_of_toNat_eq hkk, wordXK_of_op hop]

theorem wordXYN_of_op_n (hop : (opField w).toNat = op.toNat) (hn : (nField w).toNat = n.toNat) :
    wordXYN op (xField w) (yField w) n = w := by
  rw [← BitVec.eq_of_toNat_eq hn, wordXYN_of_op hop]

end

theorem low_nnnField (w : Word) : Addr12.low (nnnField w) = kkField w := by
  rw [← kkField_wordA (opField w), wordA_fields]

theorem decode0_names (h : (opField w).toNat = 0x0) : Names w (decode0 w) := by
  unfold decode0
  split
  · exact ⟨wordXK_of_op_kk h ‹_›, rfl⟩
  · exact ⟨wordXK_of_op_kk h ‹_›, rfl⟩
  · rename_i h0 hE
    refine ⟨wordA_of_op h, ?_⟩
    simp only [Instr.wellFormed, low_nnnField, Bool.and_eq_true, bne_iff_ne]
    exact ⟨fun hk => h0 (by rw [hk]; rfl), fun hk => hE (by rw [hk]; rfl)⟩

theorem decode8_names (h : (opField w).toNat = 0x8) : Names w (decode8 w) := by
  unfold decode8
  split
  case h_10 => exact rfl
  all_goals exact ⟨wordXYN_of_op_n h ‹_›, rfl⟩

theorem decodeE_names (h : (opField w).toNat = 0xE) : Names w (decodeE w) := by
  unfold decodeE
  split
  case h_3 => exact rfl
  all_goals exact ⟨wordXK_of_op_kk h ‹_›, rfl⟩

theorem decodeF_names (h : (opField w).toNat = 0xF) : Names w (decodeF w) := by
  unfold decodeF
  split
  case h_10 => exact rfl
  all_goals exact ⟨wordXK_of_op_kk h ‹_›, rfl⟩

/-- One case a first-level arm: its format rebuilds the word from the fields. -/
theorem decode_names (w : Word) : Names w (decode w) := by
  have hlt := (opField w).isLt
  unfold decode
  split
  case h_1 h => exact decode0_names h
  case h_9 h => exact decode8_names h
  case h_15 h => exact decodeE_names h
  case h_16 => exact decodeF_names (by grind)
  case h_2 | h_3 | h_11 | h_12 => exact ⟨wordA_of_op ‹_›, rfl⟩
  case h_4 | h_5 | h_7 | h_8 | h_13 => exact ⟨wordXK_of_op ‹_›, rfl⟩
  case h_6 | h_10 | h_14 => exact ⟨wordXYN_of_op ‹_›, rfl⟩

/-- Settles O3: the word is the one its answer names. -/
theorem encodeOfDecodeIsTheWord : Obligations.EncodeOfDecodeIsTheWord := by
  intro w i hd
  have hn := decode_names w
  rwa [hd] at hn

/-! ## The rows that op alone selects (R95) -/

/-- One case a first-level arm; the four that go on to the second level are excluded. -/
theorem decode_row_of_op (hop : opField w = opField w') (h : (opField w).toNat ∉ twoLevelOps) :
    ∃ i i', decode w = .handler i ∧ decode w' = .handler i' ∧ i.row = i'.row := by
  have hlt := (opField w).isLt
  unfold decode
  rw [← hop]
  split
  case h_1 | h_9 | h_15 | h_16 => exact absurd (by grind [twoLevelOps]) h
  all_goals exact ⟨_, _, rfl, rfl, rfl⟩

theorem opField_eq_of_high_byte (h : w.toNat / 256 = w'.toNat / 256) : opField w = opField w' :=
  BitVec.eq_of_toNat_eq (by rw [opField_toNat, opField_toNat]; omega)

/-- Settles O6: words with the same high byte have the same op; for SE and SNE Vx, Vy the word is the encoding. -/
theorem handlerIsIndependentOfTheLowByte : Obligations.HandlerIsIndependentOfTheLowByte := by
  refine ⟨fun w w' hw hop => ?_, fun x y n => ⟨?_, ?_⟩⟩
  · rw [← opField_toNat] at hop
    exact decode_row_of_op (opField_eq_of_high_byte hw) hop
  · exact decodeOfEncodeIsTheInstruction (.seReg x y n) rfl
  · exact decodeOfEncodeIsTheInstruction (.sneReg x y n) rfl

/-! ## The words with no handler (R100) -/

theorem decode0_ne_noHandler (w v : Word) : decode0 w ≠ .noHandler v := by
  unfold decode0
  split
  all_goals exact Decoded.noConfusion

theorem decode8_eq_noHandler_iff (w : Word) :
    decode8 w = .noHandler w ↔ w.toNat % 16 ∈ [0x8, 0x9, 0xA, 0xB, 0xC, 0xD, 0xF] := by
  rw [← nField_toNat]
  have hlt := (nField w).isLt
  unfold decode8
  split
  case h_10 =>
    simp only [List.mem_cons, List.not_mem_nil]
    grind
  all_goals simp [*]

theorem decodeE_eq_noHandler_iff (w : Word) : decodeE w = .noHandler w ↔ w.toNat % 256 ∉ [0x9E, 0xA1] := by
  rw [← kkField_toNat]
  unfold decodeE
  split
  case h_3 => grind
  all_goals simp [*]

theorem decodeF_eq_noHandler_iff (w : Word) :
    decodeF w = .noHandler w ↔ w.toNat % 256 ∉ [0x07, 0x0A, 0x15, 0x18, 0x1E, 0x29, 0x33, 0x55, 0x65] := by
  rw [← kkField_toNat]
  unfold decodeF
  split
  case h_10 =>
    simp only [List.mem_cons, List.not_mem_nil]
    grind
  all_goals simp [*]

/-- By the level that answers: op 0 and the one-level values of op always find a handler. -/
theorem decode_eq_noHandler_iff (w : Word) : decode w = .noHandler w ↔
    (w.toNat / 4096 = 0x8 ∧ w.toNat % 16 ∈ [0x8, 0x9, 0xA, 0xB, 0xC, 0xD, 0xF]) ∨
    (w.toNat / 4096 = 0xE ∧ w.toNat % 256 ∉ [0x9E, 0xA1]) ∨
    (w.toNat / 4096 = 0xF ∧ w.toNat % 256 ∉ [0x07, 0x0A, 0x15, 0x18, 0x1E, 0x29, 0x33, 0x55, 0x65]) := by
  rw [← opField_toNat, ← decode8_eq_noHandler_iff, ← decodeE_eq_noHandler_iff, ← decodeF_eq_noHandler_iff]
  obtain hop | h | h | h | h := op_cases w
  · obtain ⟨i, -, hi, -⟩ := decode_row_of_op rfl hop
    simp only [twoLevelOps, List.mem_cons, List.not_mem_nil, or_false, not_or] at hop
    simp [hi, hop]
  · simp [h, decode_of_op0 h, decode0_ne_noHandler]
  · simp [h, decode_of_op8 h]
  · simp [h, decode_of_opE h]
  · simp [h, decode_of_opF h]

/-! ## The cycle of a word with no handler (R125) -/

theorem step_of_fetch_noHandler {v : Word} (hm : s.mode = .running) (hf : s.fetch = some w) (hd : decode w = .noHandler v) :
    step s = .next (noHandlerCycle s) := by
  rw [MemoryProofs.step_of_running hm]
  simp [runningCycle, hf, hd]

/-- The host's Cycle replies Ok to a step begun in Running that took no fault. -/
theorem cycleReply_of_step_ok (hm : s.mode = .running) (h : step s = .next t) (ht : t.mode ≠ .faulted) :
    (cycleReply s).1 = .ok := by
  cases hf : t.fault with
  | none => simp [cycleReply, h, hm, hf]
  | some r => simp [cycleReply, h, hm, hf, ht]

/-- PC advances and the timers step. -/
theorem onlyRegs_noHandlerCycle (s : State) : OnlyRegs [] s (noHandlerCycle s) :=
  ⟨fun _ _ => rfl, rfl, rfl, timersRan_of rfl rfl rfl, sameRest_of rfl rfl rfl rfl rfl rfl rfl rfl rfl rfl rfl rfl⟩

/-- Settles O4: the list is the decoder's, and such a word's cycle leaves MODE at Running. -/
theorem noHandlerWordsAreNoOps : Obligations.NoHandlerWordsAreNoOps := by
  refine ⟨decode_eq_noHandler_iff, fun s w hm hp hd => ?_⟩
  have hstep := step_of_fetch_noHandler hm (fetch_eq_some hp) hd
  have hmode : (noHandlerCycle s).mode ≠ .faulted := show s.mode ≠ .faulted by simp [hm]
  exact ⟨_, hstep, cycleReply_of_step_ok hm hstep hmode, onlyRegs_noHandlerCycle s⟩

/-! ## Sample words -/

/-- Settles O1: the first seven words are encodings, the last is in the list of R100. -/
theorem sampleWordsDecodeAsWritten : Obligations.SampleWordsDecodeAsWritten :=
  have hdec := decodeOfEncodeIsTheInstruction
  ⟨hdec (.call 0x210#12) rfl, hdec (.sneReg 1#4 2#4 5#4) rfl, hdec (.subnReg 0#4 1#4) rfl, hdec (.shl 1#4 0#4) rfl,
    hdec (.drw 0#4 1#4 5#4) rfl, hdec (.sknp 2#4) rfl, hdec (.loadRegs 2#4) rfl,
    (decode_eq_noHandler_iff 0x8128#16).2 (by decide)⟩

end Sys2Proof.EncodingProofs
end

section
/-! SUPPORT. The host's operations one by one: an equation per branch, what each leaves unchanged (spec/40_engine_cycle.md R122,
R130–R139). -/

namespace Sys2Proof.HostOpProofs

open Sys2Proof.Machine Sys2Proof.Laws

variable {s : State} {image : List Byte} {k addr len : Nat} {pressed : Bool}

/-! ## Load (R130–R132) -/

theorem loadImage_of_faulted (hm : s.mode = .faulted) : loadImage image s = (.refused .faulted, s) := if_pos hm

theorem loadImage_of_too_long (hm : s.mode ≠ .faulted) (hl : image.length > 3584) : loadImage image s = (.sizeError, s) := by
  rw [loadImage, if_neg hm, if_pos hl]

theorem loadImage_of_fits (hm : s.mode ≠ .faulted) (hl : image.length ≤ 3584) :
    loadImage image s = (.ok, s.setBytes 0x200 image) := by
  rw [loadImage, if_neg hm, if_neg (Nat.not_lt.2 hl)]

theorem loadImage_mode (image : List Byte) (s : State) : (loadImage image s).2.mode = s.mode := by
  unfold loadImage
  split
  · rfl
  · split
    · rfl
    · exact setBytes_mode s _ image

theorem byteAt_setBytes_of_getElem? {bs : List Byte} {b : Byte} (base : Nat) (hb : bs[k]? = some b) :
    (s.setBytes base bs).byteAt (base + k) = b := by
  obtain ⟨hk, hget⟩ := List.getElem?_eq_some_iff.1 hb
  rw [byteAt_setBytes, dif_pos (by omega)]
  simpa using hget

theorem sameMemoryOutside_setBytes (s : State) (base : Nat) (bs : List Byte) :
    SameMemoryOutside (fun a => base ≤ a ∧ a < base + bs.length) s (s.setBytes base bs) := by
  intro a ha
  rw [byteAt_setBytes, dif_neg ha]

/-- A store changes no component but MEM. -/
theorem setBytes_restore_mem (s : State) (base : Nat) (bs : List Byte) : { s.setBytes base bs with mem := s.mem } = s := by
  induction bs generalizing s base with
  | nil => rfl
  | cons b bs ih => exact congrArg (fun u : State => { u with mem := s.mem }) (ih (s.setByte base b) (base + 1))

/-- Settles O48, one branch of Load a clause. -/
theorem loadCopiesTheImage : Obligations.LoadCopiesTheImage := by
  intro image s
  refine ⟨loadImage_of_faulted, loadImage_of_too_long, fun hm hl => ?_⟩
  rw [show perform (.load image) s = _ from loadImage_of_fits hm hl]
  exact ⟨rfl, fun k b hb => byteAt_setBytes_of_getElem? 0x200 hb, sameMemoryOutside_setBytes s 0x200 image,
    setBytes_restore_mem s 0x200 image⟩

/-! ## KeyChange (R133, R134) -/

/-- The condition of R134: a press of a key that KEY holds as released, while awaiting a key. -/
def CompletesWait (k : Nat) (pressed : Bool) (s : State) : Prop :=
  s.mode = .awaitingKey ∧ pressed = true ∧ s.key[k]? = some false

theorem completesWait_iff (hk : k < 16) :
    CompletesWait k pressed s ↔ s.mode = .awaitingKey ∧ pressed = true ∧ s.key[k] = false := by
  rw [CompletesWait, Vector.getElem?_eq_getElem hk, Option.some_inj]

theorem keyChange_of_faulted (hm : s.mode = .faulted) : keyChange k pressed s = (.refused .faulted, s) := if_pos hm

theorem keyChange_of_no_key (hm : s.mode ≠ .faulted) (hk : 15 < k) :
    keyChange k pressed s = (.refused .keyOutOfRange, s) := by
  rw [keyChange, if_neg hm, dif_neg (by omega)]

theorem keyChange_of_completesWait (hk : k < 16) (hc : CompletesWait k pressed s) :
    keyChange k pressed s = (.ok, (s.setKey k pressed hk).completeKeyWait k) := by
  have hm : s.mode ≠ .faulted := by simp [hc.1]
  rw [keyChange, if_neg hm, dif_pos hk, if_pos ((completesWait_iff hk).1 hc)]

theorem keyChange_of_not_completesWait (hm : s.mode ≠ .faulted) (hk : k < 16) (hc : ¬ CompletesWait k pressed s) :
    keyChange k pressed s = (.ok, s.setKey k pressed hk) := by
  rw [keyChange, if_neg hm, dif_pos hk, if_neg (mt (completesWait_iff hk).2 hc)]

theorem keyChange_refused (h : s.mode = .faulted ∨ 15 < k) : ∃ why, keyChange k pressed s = (.refused why, s) := by
  by_cases hm : s.mode = .faulted
  · exact ⟨_, keyChange_of_faulted hm⟩
  · exact ⟨_, keyChange_of_no_key hm (h.resolve_left hm)⟩

/-- A KeyChange either completes a wait, which makes MODE Running, or leaves MODE. -/
theorem keyChange_mode (k : Nat) (pressed : Bool) (s : State) :
    (CompletesWait k pressed s ∧ (keyChange k pressed s).2.mode = .running) ∨
      (keyChange k pressed s).2.mode = s.mode := by
  by_cases hr : s.mode = .faulted ∨ 15 < k
  · obtain ⟨why, h⟩ := keyChange_refused (pressed := pressed) hr
    exact .inr (by rw [h])
  · obtain ⟨hm, hk⟩ := not_or.1 hr
    by_cases hc : CompletesWait k pressed s
    · exact .inl ⟨hc, by rw [keyChange_of_completesWait (by omega) hc]; rfl⟩
    · exact .inr (by rw [keyChange_of_not_completesWait hm (by omega) hc]; rfl)

theorem setKey_getElem?_same (hk : k < 16) : (s.setKey k pressed hk).key[k]? = some pressed := by simp

theorem setKey_getElem?_ne {j : Nat} (hk : k < 16) (hj : j ≠ k) : (s.setKey k pressed hk).key[j]? = s.key[j]? := by
  rw [setKey_key, Vector.getElem?_set_ne _ hj.symm]

@[simp] theorem completeKeyWait_key (s : State) (k : Nat) : (s.completeKeyWait k).key = s.key := rfl

theorem completeKeyWait_val (s : State) (hk : k < 16) : (s.completeKeyWait k).val s.waitX = k := by
  have hreg : (s.completeKeyWait k).reg s.waitX = BitVec.ofNat 8 k := reg_setReg_same s _ _
  rw [State.val, hreg, BitVec.toNat_ofNat, Nat.mod_eq_of_lt (by omega)]

theorem sameRegsExcept_completeKeyWait (s : State) (k : Nat) : SameRegsExcept [s.waitX] s (s.completeKeyWait k) :=
  fun _ hr => reg_setReg_ne s _ (Ne.symm (List.ne_of_not_mem_cons hr))

/-- Settles O49, by whether the change completes a wait. -/
theorem keyChangeWritesKeyAndCompletes : Obligations.KeyChangeWritesKeyAndCompletes := by
  intro k pressed s
  refine ⟨keyChange_refused, fun hm hk15 => ?_⟩
  have hk : k < 16 := by omega
  by_cases hc : CompletesWait k pressed s
  · exact ⟨_, keyChange_of_completesWait hk hc, setKey_getElem?_same hk, fun _ => setKey_getElem?_ne hk,
      fun _ => ⟨completeKeyWait_val _ hk, sameRegsExcept_completeKeyWait _ k, rfl, rfl, rfl⟩, fun hn => absurd hc hn⟩
  · exact ⟨_, keyChange_of_not_completesWait hm hk hc, setKey_getElem?_same hk, fun _ => setKey_getElem?_ne hk,
      fun h => absurd h hc, fun _ => rfl⟩

/-! ## Cycle while awaiting a key (R122) -/

theorem cycleReply_of_awaitingKey (hm : s.mode = .awaitingKey) : cycleReply s = (.heldAwaitingKey, s) := by
  have hstep : step s = .next s := by simp [step, cycle, hm]
  simp [cycleReply, hstep, hm]

/-- Settles O11: KeyChange is the one operation that can move MODE out of AwaitingKey. -/
theorem awaitingKeyHoldsUntilAPress : Obligations.AwaitingKeyHoldsUntilAPress := by
  intro s hm
  refine ⟨cycleReply_of_awaitingKey hm, fun op hcreate hleft => ?_⟩
  rw [← hm] at hleft
  cases op with
  | create cfg rng => exact absurd rfl (hcreate cfg rng)
  | load image => exact absurd (loadImage_mode image s) hleft
  | cycle => exact absurd (congrArg (·.2.mode) (cycleReply_of_awaitingKey hm)) hleft
  | keyChange k pressed =>
    obtain ⟨⟨-, rfl, hkey⟩, hrun⟩ := (keyChange_mode k pressed s).resolve_right hleft
    exact ⟨k, rfl, hkey, hrun⟩
  | readMemory addr len => exact absurd (congrArg State.mode (StateProofs.readMemory_state addr len s)) hleft
  | clearRedraw | clearSound | readDisplay | readRegisters | readKeypad | readStatus => exact absurd rfl hleft

/-! ## The flag clears and the reads (R135–R139) -/

theorem readMemory_of_inside (h : addr + len ≤ 0x1000) : readMemory addr len s = (.okMemory (s.bytesAt addr len), s) :=
  if_pos h

theorem readMemory_of_outside (h : 0x1000 < addr + len) :
    readMemory addr len s = (.refused .addressOutOfRange, s) :=
  if_neg (Nat.not_le.2 h)

theorem getElem?_bytesAt (s : State) (base : Nat) {n j : Nat} (hj : j < n) :
    (s.bytesAt base n)[j]? = some (s.byteAt (base + j)) := by
  have hlen : j < (s.bytesAt base n).length := by rwa [length_bytesAt]
  rw [List.getElem?_eq_getElem hlen, getElem_bytesAt]

/-- Settles O50: only ReadMemory has a condition, R138's in integers. -/
theorem clearsAndReads : Obligations.ClearsAndReads := by
  intro s
  refine ⟨⟨_, rfl, rfl, rfl⟩, ⟨_, rfl, rfl, rfl⟩, rfl, rfl, fun addr len h => ?_, fun addr len h => ?_, rfl, rfl⟩
  · exact ⟨_, readMemory_of_inside (by omega), length_bytesAt s addr len, fun _ => getElem?_bytesAt s addr⟩
  · exact ⟨_, readMemory_of_outside (by omega)⟩

end Sys2Proof.HostOpProofs
end

section
/-! SUPPORT. SYS, RET, JP, CALL and JP V0: how each handler ends, the frame of a push or a pop, and the fetch that follows a jump
(spec/41_control_flow.md R160–R165). -/

namespace Sys2Proof.ControlFlowProofs

open Sys2Proof.Machine Sys2Proof.Laws

variable {s t : State} {nnn : Addr12}

/-! ## A target above 0xFFE (R160) -/

/-- The jump leaves MODE, and the fetch after it faults. -/
theorem step_after_jump (he : SameEngine s t) (hm : s.mode = .running) (hpc : t.pc.toNat > 0xFFE) :
    step t = .next (faultedState t .fetchOutOfRange none t.pc.toNat) := by
  obtain ⟨hmode, -⟩ := he
  have hfetch : t.fetch = none := fetch_eq_none (by omega)
  exact MemoryProofs.step_of_fetch_none (hmode.trans hm) hfetch

theorem sameEngine_of_onlyPc (h : OnlyPc s t) : SameEngine s t := by
  obtain ⟨-, -, -, -, -, -, hengine, -⟩ := h
  exact hengine

/-! ## SYS (R161) -/

theorem wellFormed_sys (h0 : nnn.toNat % 256 ≠ 0xE0) (hE : nnn.toNat % 256 ≠ 0xEE) :
    (Instr.sys nnn).wellFormed = true := by
  have hlow : (Addr12.low nnn).toNat = nnn.toNat % 256 := by simp [Addr12.low]
  rw [← hlow] at h0 hE
  simp only [Instr.wellFormed, Bool.and_eq_true, bne_iff_ne]
  exact ⟨fun h => h0 (congrArg BitVec.toNat h), fun h => hE (congrArg BitVec.toNat h)⟩

theorem exec_sys (s : State) (nnn : Addr12) : ∃ t, exec (.sys nnn) s = .next t ∧ OnlyRegs [] s t :=
  ⟨_, StateProofs.exec_sys_eq_noHandlerCycle s nnn, EncodingProofs.onlyRegs_noHandlerCycle s⟩

/-- Settles O12: SYS is the cycle of a word with no handler, and its encoding is well-formed. -/
theorem sysOnlyAdvancesPc : Obligations.SysOnlyAdvancesPc := fun nnn s =>
  ⟨fun h0 hE => EncodingProofs.decode_encode_sys (wellFormed_sys h0 hE), exec_sys s nnn⟩

/-- Settles O53: the word 0x0000 is the encoding of SYS 0. -/
theorem zeroBytesRunAsSys : Obligations.ZeroBytesRunAsSys := by
  intro s hm hp hhi hlo
  have hd : decode (s.byteAt s.pc.toNat ++ s.byteAt (s.pc.toNat + 1)) = .handler (.sys 0#12) := by
    rw [hhi, hlo]
    exact EncodingProofs.decodeOfEncodeIsTheInstruction (.sys 0#12) rfl
  rw [MemoryProofs.stepRunsTheDecodedInstruction s _ hm hp hd]
  exact exec_sys s 0#12

/-! ## JP and JP V0 (R163, R165) -/

/-- Settles O14: the target is nnn zero-extended. -/
theorem jpSetsPc : Obligations.JpSetsPc := by
  intro nnn s
  have hpc : (timerStep (s.advance.setPc (addrOperand nnn))).pc.toNat = nnn.toNat := StateProofs.addrOperand_toNat nnn
  have hframe := onlyPc_setPc s (addrOperand nnn)
  refine ⟨EncodingProofs.decodeOfEncodeIsTheInstruction (.jp nnn) rfl, _, exec_done rfl, hpc, hframe, fun hm htop => ?_⟩
  rw [step_after_jump (sameEngine_of_onlyPc hframe) hm (by omega), hpc, htop]

/-- Settles O16: the sum of twelve and eight bits does not wrap in sixteen. -/
theorem jpV0AddsV0 : Obligations.JpV0AddsV0 := by
  intro nnn s
  have hframe := onlyPc_setPc s (indexedTarget nnn (s.reg 0#4))
  exact ⟨EncodingProofs.decodeOfEncodeIsTheInstruction (.jpV0 nnn) rfl, _, exec_done rfl,
    StateProofs.indexedTarget_toNat nnn (s.reg 0#4), hframe, step_after_jump (sameEngine_of_onlyPc hframe)⟩

/-! ## CALL and RET (R162, R164) -/

theorem handleCall_of_full (h : s.sp.toNat = 16) : handleCall nnn s = .raised .stackOverflow 16 := by
  have hsp : s.sp = 16#8 := BitVec.eq_of_toNat_eq h
  rw [handleCall, if_pos hsp, h]

theorem handleCall_of_room (h : s.sp.toNat < 16) : handleCall nnn s =
    .done { s with stack := s.stack.set s.sp.toNat s.pc h, sp := s.sp + 1#8, pc := addrOperand nnn } := by
  have hsp : s.sp ≠ 16#8 := by bv_omega
  rw [handleCall, if_neg hsp, dif_pos h]

theorem handleRet_of_empty (h : s.sp.toNat = 0) : handleRet s = .raised .stackUnderflow 0 := by
  have hsp : s.sp = 0#8 := BitVec.eq_of_toNat_eq h
  rw [handleRet, if_pos hsp, h]

theorem handleRet_of_slot {w : Word} (h : 0 < s.sp.toNat) (hw : s.slot? (s.sp.toNat - 1) = some w) :
    handleRet s = .done { s with sp := s.sp - 1#8, pc := w } := by
  have hsp : s.sp ≠ 0#8 := by bv_omega
  rw [handleRet, if_neg hsp, hw]

theorem exists_slot?_eq_some {j : Nat} (s : State) (hj : j < 16) : ∃ w, s.slot? j = some w :=
  ⟨_, Vector.getElem?_eq_getElem hj⟩

/-- The frame of a push or a pop: all but STACK, SP and PC is unchanged, and the timers step. -/
def OnlyStackAndPc (s t : State) : Prop :=
  SameRegsExcept [] s t ∧ t.i = s.i ∧ TimersRan s t ∧ SameMemory s t ∧ SameDisplay s t ∧ SameEngine s t ∧
    SameHostSide s t ∧ t.draws = s.draws

/-- What a jump leaves of the state that already has the new STACK and SP. -/
theorem onlyStackAndPc_timerStep (s : State) (stack : Vector Word 16) (sp : Byte) (pc : Word) :
    OnlyStackAndPc s (timerStep { s.advance with stack := stack, sp := sp, pc := pc }) := by
  obtain ⟨hregs, hi, htimers, hmem, -, hdisp, hengine, hhost, hdraws⟩ :=
    onlyPc_setPc { s with stack := stack, sp := sp } pc
  exact ⟨hregs, hi, htimers, hmem, hdisp, hengine, hhost, hdraws⟩

/-- Settles O15, by whether a slot is free: the slot at SP receives the advanced PC. -/
theorem callPushesOrOverflows : Obligations.CallPushesOrOverflows := by
  intro nnn s
  refine ⟨EncodingProofs.decodeOfEncodeIsTheInstruction (.call nnn) rfl,
    fun hfull => exec_raised (i := .call nnn) (handleCall_of_full (s := s.advance) hfull), fun hroom => ?_⟩
  refine ⟨_, exec_done (i := .call nnn) (handleCall_of_room (s := s.advance) hroom), ?_,
    StateProofs.addrOperand_toNat nnn, ?_, fun j hj => ?_, onlyStackAndPc_timerStep s _ _ _⟩
  · show (s.sp + 1#8).toNat = s.sp.toNat + 1
    bv_omega
  · exact Vector.getElem?_set_self hroom
  · exact Vector.getElem?_set_ne hroom hj.symm

/-- Settles O13, by whether a slot is live: the slot below SP is the new PC. -/
theorem retPopsOrUnderflows : Obligations.RetPopsOrUnderflows := by
  intro ign s
  refine ⟨EncodingProofs.decodeOfEncodeIsTheInstruction (.ret ign) rfl,
    fun hempty => exec_raised (i := .ret ign) (handleRet_of_empty (s := s.advance) hempty), fun hpos hle => ?_⟩
  obtain ⟨w, hw⟩ := exists_slot?_eq_some s (show s.sp.toNat - 1 < 16 by omega)
  have hsp : (s.sp - 1#8).toNat = s.sp.toNat - 1 := by bv_omega
  obtain ⟨hregs, hi, htimers, hmem, hdisp, hengine, hhost, hdraws⟩ :=
    onlyStackAndPc_timerStep s s.stack (s.sp - 1#8) w
  exact ⟨_, exec_done (i := .ret ign) (handleRet_of_slot (s := s.advance) hpos hw), hsp, hw, fun _ => rfl,
    fun hs => hs.slots _ w (by omega) hw, hregs, hi, htimers, hmem, hdisp, hengine, hhost, hdraws,
    step_after_jump hengine⟩

end Sys2Proof.ControlFlowProofs
end

section
/-! SUPPORT. SE and SNE: where a cycle that may skip leaves PC, and the register SNE Vx, Vy compares with
(spec/42_conditional_skip.md R180–R184). -/

namespace Sys2Proof.SkipProofs

open Sys2Proof.Machine Sys2Proof.Laws

variable {s : State} {i : Instr} {c : Bool} {p : Prop} [Decidable p]

/-! ## The skip (R180) -/

/-- A skip adds 2 on top of the cycle's advance. -/
theorem advance_skipIf_pc (s : State) (c : Bool) :
    (s.advance.skipIf c).pc = if c = true then s.pc + 4#16 else s.pc + 2#16 := by
  have htwice : s.pc + 2#16 + 2#16 = s.pc + 4#16 := BitVec.add_assoc ..
  rw [skipIf_pc, advance_pc, htwice]

theorem exec_skip_when (h : handlerOf i s.advance = .done (s.advance.skipIf c)) (hc : c = true ↔ p) :
    ∃ t, exec i s = .next t ∧ t.pc = (if p then s.pc + 4#16 else s.pc + 2#16) ∧ OnlyPc s t := by
  refine ⟨_, exec_done h, ?_, onlyPc_skipIf s c⟩
  rw [timerStep_pc, advance_skipIf_pc]
  exact if_congr hc rfl rfl

theorem exec_skip_unless (h : handlerOf i s.advance = .done (s.advance.skipIf c)) (hc : c = true ↔ ¬p) :
    ∃ t, exec i s = .next t ∧ t.pc = (if p then s.pc + 2#16 else s.pc + 4#16) ∧ OnlyPc s t := by
  simpa only [ite_not] using exec_skip_when h hc

/-! ## The comparisons -/

theorem reg_beq_iff_val (s : State) (x : Nibble) (b : Byte) : (s.reg x == b) = true ↔ s.val x = b.toNat :=
  beq_iff_eq.trans BitVec.toNat_inj.symm

theorem reg_bne_iff_val (s : State) (x : Nibble) (b : Byte) : (s.reg x != b) = true ↔ ¬ s.val x = b.toNat :=
  bne_iff_ne.trans (not_congr BitVec.toNat_inj.symm)

/-! ## The register SNE_REG_Y_FIELD names (R184) -/

theorem sneOperand_of_y {x y n : Nibble} (h : s.cfg.sneField = .y) : s.sneOperand x y n = y := by
  rw [State.sneOperand, h]

theorem sneOperand_of_x {x y n : Nibble} (h : s.cfg.sneField = .x) : s.sneOperand x y n = x := by
  rw [State.sneOperand, h]

theorem sneOperand_of_n {x y n : Nibble} (h : s.cfg.sneField = .n) : s.sneOperand x y n = n := by
  rw [State.sneOperand, h]

/-! ## The obligations -/

/-- Settles O17: SE skips when the register is the immediate, SNE unless it is. -/
theorem immediateSkips : Obligations.ImmediateSkips := fun x kk s =>
  ⟨EncodingProofs.decodeOfEncodeIsTheInstruction (.seImm x kk) rfl,
    EncodingProofs.decodeOfEncodeIsTheInstruction (.sneImm x kk) rfl,
    exec_skip_when (i := .seImm x kk) rfl (reg_beq_iff_val s x kk),
    exec_skip_unless (i := .sneImm x kk) rfl (reg_bne_iff_val s x kk)⟩

/-- Settles O18: SNE compares with the register that the configuration names, which for x is Vx itself. -/
theorem registerSkips : Obligations.RegisterSkips := by
  intro x y n s
  have hse := exec_skip_when (i := .seReg x y n) rfl (reg_beq_iff_val s x (s.reg y))
  obtain ⟨t, hexec, hpc, hframe⟩ :=
    exec_skip_unless (i := .sneReg x y n) rfl (reg_bne_iff_val s x (s.reg (s.sneOperand x y n)))
  refine ⟨EncodingProofs.decodeOfEncodeIsTheInstruction (.seReg x y n) rfl,
    EncodingProofs.decodeOfEncodeIsTheInstruction (.sneReg x y n) rfl, hse, t, hexec, hframe,
    fun hy => ?_, fun hx => ?_, fun hn => ?_⟩
  · rwa [sneOperand_of_y hy] at hpc
  · rw [sneOperand_of_x hx] at hpc
    exact hpc.trans (if_pos rfl)
  · rwa [sneOperand_of_n hn] at hpc

end Sys2Proof.SkipProofs
end

section
/-! SUPPORT. Loads and 8-bit arithmetic: the registers a cycle leaves that writes one register, or VF and then one register
(spec/43_load_arithmetic.md R200–R206). -/

namespace Sys2Proof.LoadArithProofs

open Sys2Proof.Machine Sys2Proof.Laws

variable {s t : State} {i : Instr} {x y : Nibble} {b g : Byte}

/-! ## The written registers (R200) -/

theorem val_eq_of_reg (h : t.reg x = b) : t.val x = b.toNat := congrArg BitVec.toNat h

theorem exec_setReg (h : handlerOf i s.advance = .done (s.advance.setReg x b)) :
    ∃ t, exec i s = .next t ∧ t.reg x = b ∧ OnlyRegs [x] s t :=
  ⟨_, exec_done h, reg_setReg_same s.advance x b, onlyRegs_setReg s x b⟩

theorem reg_setFlagThenReg_same (s : State) (x : Nibble) (g b : Byte) : (s.setFlagThenReg x g b).reg x = b :=
  (reg_setFlagThenReg s x x g b).trans (if_pos rfl)

/-- VF shows the flag unless the result overwrote it. -/
theorem reg_setFlagThenReg_flag (s : State) (g b : Byte) (hx : x ≠ 0xF#4) :
    (s.setFlagThenReg x g b).reg 0xF#4 = g :=
  (reg_setFlagThenReg s x 0xF#4 g b).trans ((if_neg hx).trans (if_pos rfl))

theorem exec_setFlagThenReg (h : handlerOf i s.advance = .done (s.advance.setFlagThenReg x g b)) :
    ∃ t, exec i s = .next t ∧ t.reg x = b ∧ (x ≠ 0xF#4 → t.reg 0xF#4 = g) ∧ OnlyRegs [x, 0xF#4] s t :=
  ⟨_, exec_done h, reg_setFlagThenReg_same s.advance x g b, reg_setFlagThenReg_flag s.advance g b,
    onlyRegs_setFlagThenReg s x g b⟩

/-! ## Loads and ADD Vx, kk (R201–R203) -/

/-- Settles O19: each form writes V[x] alone, so VF is written only as the destination. -/
theorem loadsAndImmediateAdd : Obligations.LoadsAndImmediateAdd := by
  intro x y kk s
  refine ⟨EncodingProofs.decodeOfEncodeIsTheInstruction (.ldImm x kk) rfl,
    EncodingProofs.decodeOfEncodeIsTheInstruction (.addImm x kk) rfl,
    EncodingProofs.decodeOfEncodeIsTheInstruction (.ldReg x y) rfl, ?_, ?_, ?_⟩
  · obtain ⟨t, hexec, hx, hframe⟩ := exec_setReg (s := s) (i := .ldImm x kk) rfl
    exact ⟨t, hexec, val_eq_of_reg hx, hframe⟩
  · obtain ⟨t, hexec, hx, hframe⟩ := exec_setReg (s := s) (i := .addImm x kk) rfl
    exact ⟨t, hexec, (val_eq_of_reg hx).trans (sumByte_toNat (s.reg x) kk), hframe⟩
  · obtain ⟨t, hexec, hx, hframe⟩ := exec_setReg (s := s) (i := .ldReg x y) rfl
    exact ⟨t, hexec, val_eq_of_reg hx, hframe⟩

/-! ## ADD Vx, Vy (R204) -/

/-- Settles O20: sum and carry are of the registers before any write, and the sum is written last. -/
theorem addRegistersWithCarry : Obligations.AddRegistersWithCarry := by
  intro x y s
  obtain ⟨t, hexec, hx, hflag, hframe⟩ := exec_setFlagThenReg (s := s) (i := .addReg x y) rfl
  exact ⟨EncodingProofs.decodeOfEncodeIsTheInstruction (.addReg x y) rfl, t, hexec,
    (val_eq_of_reg hx).trans (sumByte_toNat (s.reg x) (s.reg y)),
    fun hne => (val_eq_of_reg (hflag hne)).trans (carryFlag_toNat (s.reg x) (s.reg y)), hframe⟩

/-! ## SUB and SUBN (R205, R206) -/

/-- Adding 256 before the natural subtraction makes it the integer difference mod 256. -/
theorem differenceByte_toInt (a b : Byte) : ((differenceByte a b).toNat : Int) = ((a.toNat : Int) - b.toNat) % 256 := by
  have hb : b.toNat < 256 := b.isLt
  rw [differenceByte_toNat]
  omega

/-- A cycle that writes the difference V[p] − V[q] to V[x] and its NOT borrow to VF: SUB and SUBN differ only in p and q. -/
theorem exec_subtraction {p q : Nibble} (h : handlerOf i s.advance = .done (s.advance.setFlagThenReg x
      (noBorrowFlag (s.reg p) (s.reg q)) (differenceByte (s.reg p) (s.reg q)))) :
    ∃ t, exec i s = .next t ∧ (t.val x : Int) = ((s.val p : Int) - s.val q) % 256 ∧
      (x ≠ 0xF#4 → t.val 0xF#4 = if s.val p ≥ s.val q then 1 else 0) ∧ OnlyRegs [x, 0xF#4] s t := by
  obtain ⟨t, hexec, hx, hflag, hframe⟩ := exec_setFlagThenReg h
  refine ⟨t, hexec, ?_, fun hne => ?_, hframe⟩
  · rw [val_eq_of_reg hx]
    exact differenceByte_toInt (s.reg p) (s.reg q)
  · exact (val_eq_of_reg (hflag hne)).trans (noBorrowFlag_toNat (s.reg p) (s.reg q))

/-- Settles O21: SUB has minuend V[x] and subtrahend V[y], SUBN the reverse. -/
theorem subtractionsWithNotBorrow : Obligations.SubtractionsWithNotBorrow := fun x y _ =>
  ⟨EncodingProofs.decodeOfEncodeIsTheInstruction (.subReg x y) rfl,
    EncodingProofs.decodeOfEncodeIsTheInstruction (.subnReg x y) rfl,
    exec_subtraction (i := .subReg x y) (p := x) (q := y) rfl,
    exec_subtraction (i := .subnReg x y) (p := y) (q := x) rfl⟩

end Sys2Proof.LoadArithProofs
end

section
/-! SUPPORT. Bitwise, shift and random: the written register bit by bit, and the operand SHIFT_SOURCE names
(spec/44_bitwise_shift_random.md R230–R236). -/

namespace Sys2Proof.BitwiseProofs

open Sys2Proof.Machine Sys2Proof.Laws

variable {s : State} {i : Instr} {x : Nibble} {b g : Byte}

/-! ## OR, AND, XOR (R231–R233) -/

theorem exec_setReg_bits {p : Nat → Bool} (h : handlerOf i s.advance = .done (s.advance.setReg x b))
    (hb : ∀ k, b.getLsbD k = p k) :
    ∃ t, exec i s = .next t ∧ (∀ k, (t.reg x).getLsbD k = p k) ∧ OnlyRegs [x] s t := by
  obtain ⟨t, hexec, rfl, hframe⟩ := LoadArithProofs.exec_setReg h
  exact ⟨t, hexec, hb, hframe⟩

/-- Settles O22: each form writes V[x] alone, with the library's bit of the combination. -/
theorem bitwiseCombinations : Obligations.BitwiseCombinations := fun x y _ =>
  ⟨EncodingProofs.decodeOfEncodeIsTheInstruction (.orReg x y) rfl,
    EncodingProofs.decodeOfEncodeIsTheInstruction (.andReg x y) rfl,
    EncodingProofs.decodeOfEncodeIsTheInstruction (.xorReg x y) rfl,
    exec_setReg_bits (i := .orReg x y) rfl fun _ => BitVec.getLsbD_or,
    exec_setReg_bits (i := .andReg x y) rfl fun _ => BitVec.getLsbD_and,
    exec_setReg_bits (i := .xorReg x y) rfl fun _ => BitVec.getLsbD_xor⟩

/-! ## SHR and SHL (R234, R235) -/

theorem shiftOperand_toNat (s : State) (x y : Nibble) :
    (s.shiftOperand x y).toNat = if s.cfg.shiftSource = .vx then s.val x else s.val y := by
  unfold State.shiftOperand
  cases s.cfg.shiftSource <;> rfl

theorem exec_setFlagThenReg_val {result flag : Nat}
    (h : handlerOf i s.advance = .done (s.advance.setFlagThenReg x g b)) (hb : b.toNat = result) (hg : g.toNat = flag) :
    ∃ t, exec i s = .next t ∧ t.val x = result ∧ (x ≠ 0xF#4 → t.val 0xF#4 = flag) ∧ OnlyRegs [x, 0xF#4] s t := by
  obtain ⟨t, hexec, hx, hflag, hframe⟩ := LoadArithProofs.exec_setFlagThenReg h
  exact ⟨t, hexec, (LoadArithProofs.val_eq_of_reg hx).trans hb,
    fun hne => (LoadArithProofs.val_eq_of_reg (hflag hne)).trans hg, hframe⟩

/-- Settles O23: result and flag are of one operand, read before either is written. -/
theorem shiftsByOne : Obligations.ShiftsByOne := by
  intro x y s src
  have hsrc : (s.shiftOperand x y).toNat = src := shiftOperand_toNat s x y
  rw [← hsrc]
  exact ⟨EncodingProofs.decodeOfEncodeIsTheInstruction (.shr x y) rfl,
    EncodingProofs.decodeOfEncodeIsTheInstruction (.shl x y) rfl,
    exec_setFlagThenReg_val (i := .shr x y) rfl (shiftRightByte_toNat _) (shiftRightFlag_toNat _),
    exec_setFlagThenReg_val (i := .shl x y) rfl (shiftLeftByte_toNat _) (shiftLeftFlag_toNat _)⟩

/-! ## RND (R236) -/

/-- Settles O24: the cycle is a register write begun one draw later, so the draw is counted in that write's frame. -/
theorem rndMasksOneDraw : Obligations.RndMasksOneDraw := by
  intro x kk s
  have hreg : (s.afterDraw.advance.setReg x (s.drawn &&& kk)).reg x = s.drawn &&& kk := reg_setReg_same ..
  obtain ⟨hregs, hi, hpc, htimers, hmem, hstack, hdisp, hengine, hhost, hdraws⟩ :=
    onlyRegs_setReg s.afterDraw x (s.drawn &&& kk)
  exact ⟨EncodingProofs.decodeOfEncodeIsTheInstruction (.rnd x kk) rfl, _, exec_done (i := .rnd x kk) rfl, hdraws,
    fun k => (congrArg (·.getLsbD k) hreg).trans BitVec.getLsbD_and, hregs, hi, hpc, htimers, hmem, hstack, hdisp,
    hengine, hhost⟩

end Sys2Proof.BitwiseProofs
end

section
/-! SUPPORT. CLS and DRW: what the sprite at I does to the grid and when it collides, and the cycle of DRW by its address check
(spec/45_display.md R260–R262). -/

namespace Sys2Proof.DisplayProofs

open Sys2Proof.Machine Sys2Proof.Laws

variable {s : State} {x y n : Nibble} {r c : Nat}

/-! ## CLS (R261) -/

/-- Settles O25: the cycle is one that does nothing, begun with the grid already blank. -/
theorem clsBlanksTheDisplay : Obligations.ClsBlanksTheDisplay := by
  intro ign s
  obtain ⟨hregs, hi, hpc, htimers, hmem, hstack, -, hengine, hhost, hdraws⟩ :=
    EncodingProofs.onlyRegs_noHandlerCycle { s with disp := Display.blank }
  exact ⟨EncodingProofs.decodeOfEncodeIsTheInstruction (.cls ign) rfl, _, exec_done (i := .cls ign) rfl, pixel_blank, rfl,
    hregs, hi, hpc, htimers, hmem, hstack, hengine, hhost, hdraws⟩

/-! ## The sprite at I (R260, R262) -/

/-- A sprite has at most 15 rows, so none of them wraps onto another. -/
theorem length_spriteBytes_le (s : State) (n : Nibble) : (s.bytesAt s.i.toNat n.toNat).length ≤ 32 := by
  rw [length_bytesAt]
  omega

theorem spriteCovers_iff_covers (hr : r < 32) (hc : c < 64) :
    SpriteCovers s x y n r c ↔ Covers (s.val y) (s.val x) (s.bytesAt s.i.toNat n.toNat) r c := by
  simp only [SpriteCovers, Covers, getElem_bytesAt, length_bytesAt, exists_prop, Nat.mod_eq_of_lt hr, Nat.mod_eq_of_lt hc]

theorem sprite_pixel_of_covers (hr : r < 32) (hc : c < 64) (h : SpriteCovers s x y n r c) :
    (s.sprite x y n).1.pixel r c = !s.disp.pixel r c :=
  (xorSprite_pixel _ _ _ _ (length_spriteBytes_le s n) r c).1 ((spriteCovers_iff_covers hr hc).1 h)

theorem sprite_pixel_of_not_covers (hr : r < 32) (hc : c < 64) (h : ¬ SpriteCovers s x y n r c) :
    (s.sprite x y n).1.pixel r c = s.disp.pixel r c :=
  (xorSprite_pixel _ _ _ _ (length_spriteBytes_le s n) r c).2 (mt (spriteCovers_iff_covers hr hc).2 h)

/-- The sprite collides when it covers a set pixel. -/
theorem sprite_collides_iff (s : State) (x y n : Nibble) :
    (s.sprite x y n).2 = true ↔ ∃ r c, SpriteCovers s x y n r c ∧ s.disp.pixel r c = true := by
  rw [State.sprite, xorSprite_collision _ _ _ _ (length_spriteBytes_le s n)]
  simp only [getElem_bytesAt, length_bytesAt, exists_prop, Bool.false_eq_true, false_or]
  constructor
  · rintro ⟨j, k, hj, hk, hbit, hset⟩
    exact ⟨_, _, ⟨j, k, hj, hk, rfl, rfl, hbit⟩, (pixel_mod ..).trans hset⟩
  · rintro ⟨r, c, ⟨j, k, hj, hk, rfl, rfl, hbit⟩, hset⟩
    exact ⟨j, k, hj, hk, hbit, (pixel_mod ..).symm.trans hset⟩

/-- The advance of PC, which comes before the handler, does not move the sprite. -/
theorem sprite_advance (s : State) (x y n : Nibble) : s.advance.sprite x y n = s.sprite x y n :=
  congrArg (Display.xorSprite (s.disp, false) (s.reg y).toNat (s.reg x).toNat)
    (bytesAt_congr (s := s) (t := s.advance) rfl rfl s.i.toNat n.toNat)

/-! ## DRW (R262) -/

/-- The state a DRW that does not raise leaves: the write of VF and the timer step, begun on the drawn grid with REDRAW set. -/
def afterSprite (s : State) (x y n : Nibble) : State :=
  timerStep (State.setReg { s with disp := (s.sprite x y n).1, redraw := true }.advance regF
    (collisionFlag (s.sprite x y n).2))

theorem exec_drw_of_inside (h : n.toNat = 0 ∨ s.i.toNat + n.toNat - 1 ≤ 0xFFF) :
    exec (.drw x y n) s = .next (afterSprite s x y n) := by
  have hdone : handlerOf (.drw x y n) s.advance = .done _ := withRange_ok (base := s.i.toNat) h _
  rw [exec_done hdone, sprite_advance]
  rfl

theorem exec_drw_of_outside (h0 : 0 < n.toNat) (h : s.i.toNat + n.toNat - 1 > 0xFFF) :
    exec (.drw x y n) s =
      .next (faultedState s .dataOutOfRange (some (encode (.drw x y n))) (max s.i.toNat 0x1000)) :=
  exec_raised (i := .drw x y n) (withRange_bad (base := s.i.toNat) ⟨h0, h⟩ _)

theorem afterSprite_flag (s : State) (x y n : Nibble) :
    (afterSprite s x y n).val 0xF#4 = if (s.sprite x y n).2 = true then 1 else 0 :=
  (LoadArithProofs.val_eq_of_reg (reg_setReg_same ..)).trans (flagByte_toNat _)

/-- Settles O26, by whether the sprite lies inside MEM. -/
theorem drwXorsTheSprite : Obligations.DrwXorsTheSprite := by
  intro x y n s
  refine ⟨EncodingProofs.decodeOfEncodeIsTheInstruction (.drw x y n) rfl, fun hin => ?_, exec_drw_of_outside⟩
  obtain ⟨hregs, hi, hpc, htimers, hmem, hstack, -, hengine, hhost, hdraws⟩ :=
    onlyRegs_setReg { s with disp := (s.sprite x y n).1, redraw := true } regF (collisionFlag (s.sprite x y n).2)
  refine ⟨afterSprite s x y n, exec_drw_of_inside hin, fun r c => sprite_pixel_of_covers,
    fun r c => sprite_pixel_of_not_covers, fun hit => ?_, fun hmiss => ?_, rfl, hregs, hi, hpc, htimers, hmem, hstack,
    hengine, hhost, hdraws⟩
  · rw [afterSprite_flag, if_pos ((sprite_collides_iff s x y n).2 hit)]
  · rw [afterSprite_flag, if_neg]
    intro hhit
    obtain ⟨r, c, hcov, hset⟩ := (sprite_collides_iff s x y n).1 hhit
    rw [hmiss r c hcov] at hset
    exact Bool.false_ne_true hset

end Sys2Proof.DisplayProofs
end

section
/-! SUPPORT. Keypad and timers: how SKP and SKNP end by the key that V[x] numbers, the wait that LD Vx, K begins and the press
that completes it, the timer a cycle writes and counts down (spec/46_keypad_timers.md R280–R286). -/

namespace Sys2Proof.KeypadTimerProofs

open Sys2Proof.Machine Sys2Proof.Laws

variable {s u : State} {i : Instr} {x : Nibble} {k : Nat} {pressed : Bool}

/-! ## SKP and SKNP (R281, R282) -/

theorem keyNumbered_eq_none (h : 15 < s.val x) : s.keyNumbered (s.reg x) = none :=
  Vector.getElem?_eq_none_iff.2 h

theorem handleSkp_of_key (h : s.key[s.val x]? = some pressed) : handleSkp x s = .done (s.skipIf pressed) := by
  have hkey : s.keyNumbered (s.reg x) = some pressed := h
  rw [handleSkp, hkey]

theorem handleSknp_of_key (h : s.key[s.val x]? = some pressed) : handleSknp x s = .done (s.skipIf (!pressed)) := by
  have hkey : s.keyNumbered (s.reg x) = some pressed := h
  rw [handleSknp, hkey]

theorem handleSkp_of_no_key (h : 15 < s.val x) : handleSkp x s = .raised .keyIndexOutOfRange (s.val x) := by
  rw [handleSkp, keyNumbered_eq_none h, State.val]

theorem handleSknp_of_no_key (h : 15 < s.val x) : handleSknp x s = .raised .keyIndexOutOfRange (s.val x) := by
  rw [handleSknp, keyNumbered_eq_none h, State.val]

/-- Settles O27, by whether V[x] numbers a key: SKP skips when the key is pressed, SKNP unless it is. -/
theorem keySkips : Obligations.KeySkips := by
  intro x s
  refine ⟨EncodingProofs.decodeOfEncodeIsTheInstruction (.skp x) rfl,
    EncodingProofs.decodeOfEncodeIsTheInstruction (.sknp x) rfl, fun pressed hkey => ⟨?_, ?_⟩, fun hno => ⟨?_, ?_⟩⟩
  · exact SkipProofs.exec_skip_when (i := .skp x) (handleSkp_of_key (s := s.advance) hkey) Iff.rfl
  · exact SkipProofs.exec_skip_unless (i := .sknp x) (handleSknp_of_key (s := s.advance) hkey) (by simp)
  · exact exec_raised (i := .skp x) (handleSkp_of_no_key (s := s.advance) hno)
  · exact exec_raised (i := .sknp x) (handleSknp_of_no_key (s := s.advance) hno)

/-! ## LD Vx, K (R283) -/

/-- The state LD Vx, K leaves: that of a cycle that executes nothing, with the wait begun. -/
def afterKeyWait (s : State) (x : Nibble) : State :=
  { noHandlerCycle s with waitX := x, keywait := true, mode := .awaitingKey }

theorem exec_ldVxK (x : Nibble) (s : State) : exec (.ldVxK x) s = .next (afterKeyWait s x) :=
  exec_done (i := .ldVxK x) rfl

theorem keyChange_mode_of_held_key (hm : s.mode = .awaitingKey) (hk : s.key[k]? = some true) :
    (keyChange k true s).2.mode = .awaitingKey := by
  have hnot : ¬ HostOpProofs.CompletesWait k true s := by simp [HostOpProofs.CompletesWait, hk]
  exact ((HostOpProofs.keyChange_mode k true s).resolve_left fun h => hnot h.1).trans hm

theorem keyChange_of_released_key (hm : s.mode = .awaitingKey) (hk : s.key[k]? = some false) :
    ∃ h : k < 16, keyChange k true s = (.ok, (s.setKey k true h).completeKeyWait k) := by
  obtain ⟨h, -⟩ := Vector.getElem?_eq_some_iff.1 hk
  exact ⟨h, HostOpProofs.keyChange_of_completesWait h ⟨hm, rfl, hk⟩⟩

/-- Settles O28: once begun, the wait is a state in AwaitingKey, where a Cycle is held and a press of a released key completes. -/
theorem keyWaitEntersAndCompletes : Obligations.KeyWaitEntersAndCompletes := by
  intro x s
  refine ⟨EncodingProofs.decodeOfEncodeIsTheInstruction (.ldVxK x) rfl, afterKeyWait s x, exec_ldVxK x s, rfl, rfl, rfl,
    rfl, EncodingProofs.onlyRegs_noHandlerCycle s, HostOpProofs.cycleReply_of_awaitingKey (s := afterKeyWait s x) rfl,
    fun k => keyChange_mode_of_held_key rfl, fun k hk => ?_⟩
  obtain ⟨hk16, hpress⟩ := keyChange_of_released_key rfl hk
  rw [show perform (.keyChange k true) (afterKeyWait s x) = _ from hpress]
  exact ⟨HostOpProofs.completeKeyWait_val _ hk16, rfl, rfl,
    HostOpProofs.sameRegsExcept_completeKeyWait ((afterKeyWait s x).setKey k true hk16) k, rfl⟩

/-! ## The timer transfers (R284–R286) -/

/-- A write that commutes with the advance of PC: the cycle is one that executes nothing, begun with the write already made. -/
theorem exec_eq_noHandlerCycle (h : handlerOf i s.advance = .done u.advance) : exec i s = .next (noHandlerCycle u) :=
  exec_done h

theorem timersRan_noHandlerCycle (s : State) : TimersRan s (noHandlerCycle s) := timersRan_of rfl rfl rfl

/-- Settles O29: the read sees DT before the timer step; the timer step counts down the timer just written. -/
theorem timerTransfers : Obligations.TimerTransfers := by
  intro x s
  refine ⟨EncodingProofs.decodeOfEncodeIsTheInstruction (.ldVxDt x) rfl,
    EncodingProofs.decodeOfEncodeIsTheInstruction (.ldDtVx x) rfl,
    EncodingProofs.decodeOfEncodeIsTheInstruction (.ldStVx x) rfl, ?_, ?_, ?_⟩
  · obtain ⟨t, hexec, hx, hframe⟩ := LoadArithProofs.exec_setReg (s := s) (i := .ldVxDt x) rfl
    exact ⟨t, hexec, LoadArithProofs.val_eq_of_reg hx, hframe⟩
  · obtain ⟨hdt, -, -⟩ := timersRan_noHandlerCycle { s with dt := s.reg x }
    exact ⟨_, exec_eq_noHandlerCycle (i := .ldDtVx x) rfl, hdt, EncodingProofs.onlyRegs_noHandlerCycle _⟩
  · obtain ⟨-, hst, hsound⟩ := timersRan_noHandlerCycle { s with st := s.reg x }
    exact ⟨_, exec_eq_noHandlerCycle (i := .ldStVx x) rfl, hst, hsound, EncodingProofs.onlyRegs_noHandlerCycle _⟩

end Sys2Proof.KeypadTimerProofs
end

section
/-! SUPPORT. Index register and memory transfer: the cycle of an instruction that writes I, stores bytes, or loads registers,
and where the address check ends it (spec/47_index_memory.md R310–R316). -/

namespace Sys2Proof.IndexMemoryProofs

open Sys2Proof.Machine Sys2Proof.Laws

variable {s : State} {i : Instr} {x : Nibble} {w : Word} {bs : List Byte} {base len : Nat}

/-! ## The writes of I (R311–R313) -/

theorem glyphAddress_toNat (b : Byte) : (glyphAddress b).toNat = b.toNat * 5 := by
  have := b.isLt
  rw [glyphAddress, BitVec.toNat_ofNat, Nat.mod_eq_of_lt (by omega)]

theorem exec_setI {value : Nat} (h : handlerOf i s.advance = .done (s.advance.setI w)) (hw : w.toNat = value) :
    ∃ t, exec i s = .next t ∧ t.i.toNat = value ∧ OnlyIndex s t :=
  ⟨_, exec_done h, hw, onlyIndex_setI s w⟩

/-- Settles O30: each form writes I alone, and only ADD I can wrap. -/
theorem indexRegisterWrites : Obligations.IndexRegisterWrites := fun x nnn s =>
  ⟨EncodingProofs.decodeOfEncodeIsTheInstruction (.ldI nnn) rfl,
    EncodingProofs.decodeOfEncodeIsTheInstruction (.addI x) rfl,
    EncodingProofs.decodeOfEncodeIsTheInstruction (.ldF x) rfl,
    exec_setI (i := .ldI nnn) rfl (StateProofs.addrOperand_toNat nnn),
    exec_setI (i := .addI x) rfl (BitVec.toNat_ofNat ..),
    exec_setI (i := .ldF x) rfl (glyphAddress_toNat (s.reg x))⟩

/-! ## The address check (R310) -/

/-- An access outside MEM ends the cycle in the fault, before any write. -/
theorem exec_outside {h : Handled} (hi : handlerOf i s.advance = withRange s.i.toNat len h) (h0 : 0 < len)
    (hout : s.i.toNat + len - 1 > 0xFFF) :
    exec i s = .next (faultedState s .dataOutOfRange (some (encode i)) (max s.i.toNat 0x1000)) :=
  exec_raised (hi.trans (withRange_bad ⟨h0, hout⟩ h))

/-! ## The stores (R314, R315) -/

theorem setBytes_eq_with_mem (s : State) (base : Nat) (bs : List Byte) :
    s.setBytes base bs = { s with mem := (s.setBytes base bs).mem } :=
  congrArg (fun u : State => { u with mem := (s.setBytes base bs).mem }) (HostOpProofs.setBytes_restore_mem s base bs)

/-- The frame of a store: all but MEM, I and PC is unchanged, and the timers step. -/
def OnlyMemoryAndIndex (s t : State) : Prop :=
  SameRegsExcept [] s t ∧ t.pc = s.pc + 2#16 ∧ TimersRan s t ∧ SameStack s t ∧ SameDisplay s t ∧ SameEngine s t ∧
    SameHostSide s t ∧ t.draws = s.draws

/-- The frame is that of a write of I begun with the bytes already stored. -/
theorem onlyMemoryAndIndex_setBytes_setI (s : State) (base : Nat) (bs : List Byte) (w : Word) :
    OnlyMemoryAndIndex s (timerStep ((s.advance.setBytes base bs).setI w)) := by
  obtain ⟨hregs, hpc, htimers, -, hstack, hdisp, hengine, hhost, hdraws⟩ :=
    onlyIndex_setI { s with mem := (s.advance.setBytes base bs).mem } w
  rw [setBytes_eq_with_mem]
  exact ⟨hregs, hpc, htimers, hstack, hdisp, hengine, hhost, hdraws⟩

theorem exec_store (h : handlerOf i s.advance = .done ((s.advance.setBytes base bs).setI w)) :
    ∃ t, exec i s = .next t ∧ (∀ k b, bs[k]? = some b → t.byteAt (base + k) = b) ∧
      SameMemoryOutside (fun a => base ≤ a ∧ a < base + bs.length) s t ∧ t.i = w ∧ OnlyMemoryAndIndex s t :=
  ⟨_, exec_done h, fun _ _ => HostOpProofs.byteAt_setBytes_of_getElem? base,
    HostOpProofs.sameMemoryOutside_setBytes s.advance base bs, rfl, onlyMemoryAndIndex_setBytes_setI s base bs w⟩

/-- LD B is a store that writes I back. -/
theorem handlerOf_ldB_of_inside (h : s.i.toNat + 2 ≤ 0xFFF) :
    handlerOf (.ldB x) s = .done ((s.setBytes s.i.toNat (decimalDigits (s.reg x))).setI s.i) := by
  have hdone : handlerOf (.ldB x) s = .done (s.setBytes s.i.toNat (decimalDigits (s.reg x))) := withRange_ok (.inr h) _
  rw [hdone, setBytes_eq_with_mem]
  rfl

theorem decimalDigit_toNat {d : Nat} (h : d < 256) : (BitVec.ofNat 8 d : Byte).toNat = d :=
  (BitVec.toNat_ofNat ..).trans (Nat.mod_eq_of_lt h)

/-- Settles O31, by whether I + 2 lies inside MEM. -/
theorem bcdStoresThreeDigits : Obligations.BcdStoresThreeDigits := by
  intro x s
  refine ⟨EncodingProofs.decodeOfEncodeIsTheInstruction (.ldB x) rfl, fun hin => ?_,
    exec_outside (i := .ldB x) (len := 3) rfl (by decide)⟩
  obtain ⟨t, hexec, hdigits, hmem, hi, hregs, hframe⟩ := exec_store (handlerOf_ldB_of_inside (s := s.advance) (x := x) hin)
  have hval : s.val x < 256 := (s.reg x).isLt
  refine ⟨t, hexec, ?_, ?_, ?_, hmem, hregs, hi, hframe⟩
  · exact (congrArg BitVec.toNat (hdigits 0 _ rfl)).trans (decimalDigit_toNat (by omega))
  · exact (congrArg BitVec.toNat (hdigits 1 _ rfl)).trans (decimalDigit_toNat (by omega))
  · exact (congrArg BitVec.toNat (hdigits 2 _ rfl)).trans (decimalDigit_toNat (by omega))

theorem bulkEnd_toNat (s : State) (x : Nibble) : (s.bulkEnd x).toNat = (s.i.toNat + x.toNat + 1) % 65536 :=
  BitVec.toNat_ofNat ..

/-- Settles O32, by whether I + x lies inside MEM. -/
theorem bulkStore : Obligations.BulkStore := by
  intro x s
  refine ⟨EncodingProofs.decodeOfEncodeIsTheInstruction (.storeRegs x) rfl, fun hin => ?_,
    exec_outside (i := .storeRegs x) (len := x.toNat + 1) rfl (Nat.succ_pos _)⟩
  have hdone : handlerOf (.storeRegs x) s.advance = .done _ := withRange_ok (base := s.i.toNat) (.inr hin) _
  obtain ⟨t, hexec, -, hmem, hi, hframe⟩ := exec_store hdone
  obtain ⟨-, hbytes⟩ := MemoryProofs.exec_storeRegs_stored hexec hin
  rw [length_firstRegs] at hmem
  exact ⟨t, hexec, hbytes, hmem, (congrArg BitVec.toNat hi).trans (bulkEnd_toNat s x), hframe⟩

/-! ## The bulk load (R316) -/

theorem loadFirstRegs_restore_v (s : State) (base n : Nat) : { s.loadFirstRegs base n with v := s.v } = s := by
  induction n with
  | zero => rfl
  | succ n ih => exact ih

theorem loadFirstRegs_eq_with_v (s : State) (base n : Nat) :
    s.loadFirstRegs base n = { s with v := (s.loadFirstRegs base n).v } :=
  congrArg (fun u : State => { u with v := (s.loadFirstRegs base n).v }) (loadFirstRegs_restore_v s base n)

/-- The frame of a bulk load: all but V, I and PC is unchanged, and the timers step. -/
def OnlyRegsAndIndex (s t : State) : Prop := t.pc = s.pc + 2#16 ∧ TimersRan s t ∧ SameRest s t

/-- The frame is that of a write of I begun with the registers already loaded. -/
theorem onlyRegsAndIndex_loadFirstRegs_setI (s : State) (base n : Nat) (w : Word) :
    OnlyRegsAndIndex s (timerStep ((s.advance.loadFirstRegs base n).setI w)) := by
  obtain ⟨-, hframe⟩ := onlyIndex_setI { s with v := (s.advance.loadFirstRegs base n).v } w
  rw [loadFirstRegs_eq_with_v]
  exact hframe

/-- Settles O33, by whether I + x lies inside MEM. -/
theorem bulkLoad : Obligations.BulkLoad := by
  intro x s
  refine ⟨EncodingProofs.decodeOfEncodeIsTheInstruction (.loadRegs x) rfl, fun hin => ?_,
    exec_outside (i := .loadRegs x) (len := x.toNat + 1) rfl (Nat.succ_pos _)⟩
  have hdone : handlerOf (.loadRegs x) s.advance = .done _ := withRange_ok (base := s.i.toNat) (.inr hin) _
  have hreg := reg_loadFirstRegs s.advance s.i.toNat (x.toNat + 1) x.isLt
  exact ⟨_, exec_done hdone, fun j hj => (hreg j).trans (if_pos (Nat.lt_succ_of_le hj)),
    fun j hj => (hreg j).trans (if_neg (by omega)), bulkEnd_toNat s x, onlyRegsAndIndex_loadFirstRegs_setI s _ _ _⟩

end Sys2Proof.IndexMemoryProofs
end

section
/-! SUPPORT. When the cycle faults, and what the fault leaves: the table of R340, precision (R342), and Faulted as the state that
only Create leaves (spec/60_exceptions.md R340–R344; spec/40_engine_cycle.md R122, R123). -/

namespace Sys2Proof.FaultProofs

open Sys2Proof.Machine Sys2Proof.Laws

variable {s t u : State} {i : Instr} {x : Nibble} {cause : Cause} {info : Nat}

/-! ## A handler raises exactly what the table says (R340) -/

theorem done_ne_raised : Handled.done u ≠ .raised cause info := nofun

theorem raised_eq_raised_iff {c : Cause} {n : Nat} :
    Handled.raised c n = .raised cause info ↔ cause = c ∧ info = n := by
  rw [Handled.raised.injEq, eq_comm, @eq_comm _ n]

theorem withRange_eq_raised_iff {base len : Nat} :
    withRange base len (.done u) = .raised cause info ↔ cause = .dataOutOfRange ∧ FirstOutside base len info := by
  rw [firstOutside_iff]
  by_cases hout : 0 < len ∧ base + len - 1 > 0xFFF
  · simp only [withRange_bad hout, raised_eq_raised_iff, hout, true_and]
  · rw [withRange_ok (by omega)]
    exact iff_of_false done_ne_raised fun h => hout h.2.1

theorem handleCall_eq_raised_iff {nnn : Addr12} :
    handleCall nnn s = .raised cause info ↔ cause = .stackOverflow ∧ s.sp.toNat = 16 ∧ info = s.sp.toNat := by
  by_cases hfull : s.sp.toNat = 16
  · rw [ControlFlowProofs.handleCall_of_full hfull, raised_eq_raised_iff, hfull]
    simp
  · have hsp : s.sp ≠ 16#8 := by bv_omega
    refine iff_of_false ?_ fun h => hfull h.2.1
    rw [handleCall, if_neg hsp]
    split <;> nofun

theorem handleRet_eq_raised_iff :
    handleRet s = .raised cause info ↔ cause = .stackUnderflow ∧ s.sp.toNat = 0 ∧ info = s.sp.toNat := by
  by_cases hempty : s.sp.toNat = 0
  · rw [ControlFlowProofs.handleRet_of_empty hempty, raised_eq_raised_iff, hempty]
    simp
  · have hsp : s.sp ≠ 0#8 := by bv_omega
    refine iff_of_false ?_ fun h => hempty h.2.1
    rw [handleRet, if_neg hsp]
    split <;> nofun

/-- A handler that raises when V[x] numbers no key, and completes when it numbers one: SKP and SKNP. -/
theorem eq_raised_iff_of_key {h : Handled} (hnone : 15 < s.val x → h = .raised .keyIndexOutOfRange (s.val x))
    (hsome : ∀ pressed, s.key[s.val x]? = some pressed → ∃ u, h = .done u) :
    h = .raised cause info ↔ cause = .keyIndexOutOfRange ∧ 15 < s.val x ∧ info = s.val x := by
  by_cases hno : 15 < s.val x
  · simp only [hnone hno, raised_eq_raised_iff, hno, true_and]
  · obtain ⟨u, hu⟩ := hsome _ (Vector.getElem?_eq_getElem (by omega))
    rw [hu]
    exact iff_of_false done_ne_raised fun hc => hno hc.2.1

theorem handleSkp_eq_raised_iff :
    handleSkp x s = .raised cause info ↔ cause = .keyIndexOutOfRange ∧ 15 < s.val x ∧ info = s.val x :=
  eq_raised_iff_of_key KeypadTimerProofs.handleSkp_of_no_key fun _ hkey => ⟨_, KeypadTimerProofs.handleSkp_of_key hkey⟩

theorem handleSknp_eq_raised_iff :
    handleSknp x s = .raised cause info ↔ cause = .keyIndexOutOfRange ∧ 15 < s.val x ∧ info = s.val x :=
  eq_raised_iff_of_key KeypadTimerProofs.handleSknp_of_no_key fun _ hkey => ⟨_, KeypadTimerProofs.handleSknp_of_key hkey⟩

/-- One case a row of the table. -/
theorem handlerOf_eq_raised_iff (i : Instr) (s : State) :
    handlerOf i s = .raised cause info ↔ FaultCondition i s cause info :=
  match i with
  | .call _ => handleCall_eq_raised_iff
  | .ret _ => handleRet_eq_raised_iff
  | .skp _ => handleSkp_eq_raised_iff
  | .sknp _ => handleSknp_eq_raised_iff
  | .drw _ _ _ | .ldB _ | .storeRegs _ | .loadRegs _ => withRange_eq_raised_iff
  | .cls _ | .sys _ | .jp _ | .seImm _ _ | .sneImm _ _ | .seReg _ _ _ | .ldImm _ _ | .addImm _ _ | .ldReg _ _
  | .orReg _ _ | .andReg _ _ | .xorReg _ _ | .addReg _ _ | .subReg _ _ | .shr _ _ | .subnReg _ _ | .shl _ _
  | .sneReg _ _ _ | .ldI _ | .jpV0 _ | .rnd _ _ | .ldVxDt _ | .ldVxK _ | .ldDtVx _ | .ldStVx _ | .addI _
  | .ldF _ => iff_of_false done_ne_raised id

theorem faultCondition_advance : FaultCondition i s.advance cause info ↔ FaultCondition i s cause info := by
  cases i <;> rfl

/-- A cycle whose handler completes leaves FAULT, and leaves MODE or begins a wait. -/
theorem done_keeps_fault_mode (h : handlerOf i s.advance = .done u) :
    (timerStep u).fault = s.fault ∧ ((timerStep u).mode = s.mode ∨ (timerStep u).mode = .awaitingKey) := by
  obtain ⟨-, -, hfault, -, -, hmode⟩ := handler_keeps i _ u h
  exact ⟨hfault, hmode.imp And.left And.left⟩

/-- Settles O35: the handler runs after the advance of PC, on which no condition of the table depends. -/
theorem faultsAreRaisedAsTabulated : Obligations.FaultsAreRaisedAsTabulated := by
  refine ⟨fun i s hsp => ⟨fun cause info hc => ?_, fun hnone => ?_⟩,
    fun s hm hp => MemoryProofs.step_of_fetch_none hm (fetch_eq_none hp), rfl⟩
  · exact exec_raised ((handlerOf_eq_raised_iff i _).2 (faultCondition_advance.2 hc))
  · obtain ⟨t, ht⟩ := StateProofs.exec_isNext i hsp
    obtain ⟨u, hu, rfl⟩ | ⟨c, n, hr, -⟩ := exec_cases ht
    · exact ⟨_, ht, done_keeps_fault_mode hu⟩
    · exact absurd (faultCondition_advance.1 ((handlerOf_eq_raised_iff i _).1 hr)) (hnone c n)

/-! ## A fault is precise (R342) -/

theorem mode_ne_faulted_of_done (hm : s.mode = .running) (h : handlerOf i s.advance = .done u) :
    (timerStep u).mode ≠ .faulted := by
  obtain ⟨-, hmode | hmode⟩ := done_keeps_fault_mode h
  · simp only [hmode, hm, ne_eq, reduceCtorEq, not_false_eq_true]
  · simp only [hmode, ne_eq, reduceCtorEq, not_false_eq_true]

/-- The fault a step took in Running is the fetch's, without a word, or one of the fetched instruction's handler. -/
theorem step_faulted_cases (hm : s.mode = .running) (h : step s = .next t) (ht : t.mode = .faulted) :
    ∃ cause info, t = faultedState s cause s.fetch info ∧ (s.fetch = none ↔ cause = .fetchOutOfRange) := by
  obtain ⟨hw, -⟩ | ⟨-, hp, rfl⟩ | ⟨w, i, -, -, hf, hd, hx⟩ | ⟨w, -, -, -, -, rfl⟩ := step_cases h
  · simp [hm] at hw
  · have hf := fetch_eq_none hp
    exact ⟨_, _, by rw [hf]; rfl, by simp [hf]⟩
  · obtain ⟨u, hu, rfl⟩ | ⟨c, n, hr, rfl⟩ := exec_cases hx
    · exact absurd ht (mode_ne_faulted_of_done hm hu)
    · obtain ⟨hw, -⟩ := EncodingProofs.encodeOfDecodeIsTheWord w i hd
      exact ⟨c, n, by rw [hf, hw]; rfl, by simp [hf, StateProofs.cause_ne_fetch_of_raised hr]⟩
  · have hmode : s.mode = .faulted := ht
    simp [hm] at hmode

/-- Settles O36: the host's Cycle reports the cause that the step recorded. -/
theorem faultsArePrecise : Obligations.FaultsArePrecise := by
  intro s t hm h ht
  obtain ⟨cause, info, rfl, hfetch⟩ := step_faulted_cases hm h ht
  exact ⟨cause, info, rfl, MemoryProofs.cycleReply_of_step_faulted hm h, hfetch⟩

/-! ## Outside Running (R122, R123) -/

theorem step_of_faulted (hm : s.mode = .faulted) : step s = .refused .engineFaulted := by simp [step, cycle, hm]

theorem step_of_awaitingKey (hm : s.mode = .awaitingKey) : step s = .next s := by simp [step, cycle, hm]

/-- Settles O10. -/
theorem stepOutsideRunning : Obligations.StepOutsideRunning := fun _ => ⟨step_of_faulted, step_of_awaitingKey⟩

theorem cycleReply_of_faulted (hm : s.mode = .faulted) : cycleReply s = (.refused .faulted, s) := by
  rw [cycleReply, step_of_faulted hm]

/-! ## Faulted is absorbing (R344) -/

/-- In Faulted every operation but Create leaves the state, or clears one of the host's flags. -/
theorem perform_of_faulted (hm : s.mode = .faulted) (op : HostOp) (hop : ∀ cfg rng, op ≠ .create cfg rng) :
    (perform op s).2.mode = .faulted ∧ (perform op s).2.fault = s.fault := by
  cases op with
  | create cfg rng => exact absurd rfl (hop cfg rng)
  | load image => simp [perform, HostOpProofs.loadImage_of_faulted hm, hm]
  | cycle => simp [perform, cycleReply_of_faulted hm, hm]
  | keyChange k pressed => simp [perform, HostOpProofs.keyChange_of_faulted hm, hm]
  | readMemory addr len => simp [perform, StateProofs.readMemory_state, hm]
  | clearRedraw | clearSound | readDisplay | readRegisters | readKeypad | readStatus => exact ⟨hm, rfl⟩

/-- Settles O37. -/
theorem faultedIsAbsorbing : Obligations.FaultedIsAbsorbing := by
  intro s hm
  exact ⟨cycleReply_of_faulted hm, fun _ _ => HostOpProofs.keyChange_of_faulted hm,
    fun _ => HostOpProofs.loadImage_of_faulted hm, rfl, rfl, rfl, rfl, rfl,
    fun _ _ => HostOpProofs.readMemory_of_inside, by rw [← hm]; rfl, perform_of_faulted hm, fun _ _ => rfl⟩

end Sys2Proof.FaultProofs
end

section
/-! SUPPORT. A machine with nothing loaded runs the word 0x0000, SYS, up to the end of memory (spec/70_reset_and_hazards.md R372;
spec/41_control_flow.md R161). -/

namespace Sys2Proof.UnloadedProofs

open Sys2Proof.Machine Sys2Proof.Laws

/-- One more step at the end of a run. -/
theorem run_succ_of_run {M : Host.Core} {k : Nat} {s t : M.State} (h : M.run k s = .next t) :
    M.run (k + 1) s = M.step t := by
  induction k generalizing s with
  | zero =>
    obtain rfl : s = t := Host.Outcome.next.inj h
    rw [Host.Core.run]
    cases M.step s <;> rfl
  | succ k ih =>
    rw [Host.Core.run] at h ⊢
    split at h
    · exact ih h
    · cases h
    · cases h

theorem step_of_zero_bytes {s : State} (hm : s.mode = .running) (hp : s.pc.toNat + 1 ≤ 0xFFF)
    (hhi : s.byteAt s.pc.toNat = 0#8) (hlo : s.byteAt (s.pc.toNat + 1) = 0#8) : step s = .next (noHandlerCycle s) := by
  have hd : decode (s.byteAt s.pc.toNat ++ s.byteAt (s.pc.toNat + 1)) = .handler (.sys 0#12) := by
    rw [hhi, hlo]
    exact EncodingProofs.decodeOfEncodeIsTheInstruction (.sys 0#12) rfl
  rw [MemoryProofs.stepRunsTheDecodedInstruction s _ hm hp hd, StateProofs.exec_sys_eq_noHandlerCycle]

section
variable (cfg : Config) (rng : Nat)

/-- The new machine, with PC at an address. -/
def unloadedAt (pc : Word) : State := { State.create cfg rng with pc := pc }

/-- Nothing is listed in MEM, so above the font every byte is 0 (R63). -/
theorem byteAt_unloadedAt (pc : Word) {a : Nat} (ha : 80 ≤ a) : (unloadedAt cfg rng pc).byteAt a = 0#8 :=
  StateProofs.creationByte_of_ge cfg ha

/-- Zero timers stay zero and SOUND clear: SYS leaves only PC advanced. -/
theorem noHandlerCycle_unloadedAt (pc : Word) :
    noHandlerCycle (unloadedAt cfg rng pc) = unloadedAt cfg rng (pc + 2#16) := rfl

theorem step_unloadedAt {pc : Word} (hlo : 80 ≤ pc.toNat) (hhi : pc.toNat + 1 ≤ 0xFFF) :
    step (unloadedAt cfg rng pc) = .next (unloadedAt cfg rng (pc + 2#16)) := by
  have hbyte := fun a => byteAt_unloadedAt cfg rng pc (a := a)
  rw [step_of_zero_bytes rfl hhi (hbyte _ hlo) (hbyte _ (Nat.le_succ_of_le hlo)), noHandlerCycle_unloadedAt]

theorem run_create {k : Nat} (hk : k ≤ 1792) :
    Host.Core.run Sys2Proof.core k (State.create cfg rng) = .next (unloadedAt cfg rng (BitVec.ofNat 16 (0x200 + 2 * k))) := by
  induction k with
  | zero => rfl
  | succ k ih =>
    have hpc : (BitVec.ofNat 16 (0x200 + 2 * k)).toNat = 0x200 + 2 * k := by
      rw [BitVec.toNat_ofNat, Nat.mod_eq_of_lt (by omega)]
    have hrun := run_succ_of_run (ih (by omega))
    have hstep := step_unloadedAt cfg rng (pc := BitVec.ofNat 16 (0x200 + 2 * k)) (by omega) (by omega)
    rw [← BitVec.ofNat_add] at hstep
    exact hrun.trans hstep

end

/-- Settles O52: after 1792 steps PC is 0x1000, where nothing is fetched. -/
theorem unloadedMachineRunsOffTheEnd : Obligations.UnloadedMachineRunsOffTheEnd := by
  intro cfg rng
  have hrun := run_succ_of_run (run_create cfg rng (Nat.le_refl 1792))
  have hfetch : (unloadedAt cfg rng 0x1000#16).fetch = none := fetch_eq_none (show 0x1000 + 1 > 0xFFF by omega)
  exact ⟨fun _ => run_create cfg rng, hrun.trans (MemoryProofs.step_of_fetch_none rfl hfetch)⟩

end Sys2Proof.UnloadedProofs
end

section
/-! SUPPORT. The decoder and the rows of spec/opcode_table.json: two words that agree in a row's fixed bits decode to the same row
(spec/30_encoding.md R94–R99). -/

namespace Sys2Proof.OpcodeTableProofs

open Sys2Proof.Machine Sys2Proof.Laws EncodingProofs

variable {w w' m : Word}

/-! ## The row of an answer -/

/-- The row of the handler that an answer names. -/
def rowOf : Decoded → Option OpcodeRow
  | .handler i => some i.row
  | .noHandler _ => none

theorem rowOf_eq_some {d : Decoded} {r : OpcodeRow} (h : rowOf d = some r) : ∃ j, d = .handler j ∧ j.row = r := by
  cases d with
  | handler j => exact ⟨j, rfl, Option.some.inj h⟩
  | noHandler v => cases h

theorem rowOf_decode_of_op (hop : opField w = opField w') (h : (opField w).toNat ∉ twoLevelOps) :
    rowOf (decode w) = rowOf (decode w') := by
  obtain ⟨i, i', hi, hi', hrow⟩ := decode_row_of_op hop h
  rw [hi, hi', rowOf, rowOf, hrow]

theorem rowOf_decode0_of_kk (h : kkField w = kkField w') : rowOf (decode0 w) = rowOf (decode0 w') := by
  unfold decode0
  rw [h]
  split <;> rfl

theorem rowOf_decode8_of_n (h : nField w = nField w') : rowOf (decode8 w) = rowOf (decode8 w') := by
  unfold decode8
  rw [h]
  split <;> rfl

theorem rowOf_decodeE_of_kk (h : kkField w = kkField w') : rowOf (decodeE w) = rowOf (decodeE w') := by
  unfold decodeE
  rw [h]
  split <;> rfl

theorem rowOf_decodeF_of_kk (h : kkField w = kkField w') : rowOf (decodeF w) = rowOf (decodeF w') := by
  unfold decodeF
  rw [h]
  split <;> rfl

/-! ## Words that agree under a mask -/

/-- A field whose bits the mask all keeps. -/
theorem extractLsb'_eq_of_and_eq {start len : Nat} (h : w &&& m = w' &&& m)
    (hm : m.extractLsb' start len = BitVec.allOnes len) : w.extractLsb' start len = w'.extractLsb' start len := by
  have hf := congrArg (BitVec.extractLsb' start len) h
  rwa [BitVec.extractLsb'_and, BitVec.extractLsb'_and, hm, BitVec.and_allOnes, BitVec.and_allOnes] at hf

/-- Every row fixes op. -/
theorem opField_row_mask (i : Instr) : opField i.row.mask = BitVec.allOnes 4 := by
  cases i <;> simp [opField, Instr.row]

theorem kkField_eq_of_and_eq (h : w &&& 0xF0FF#16 = w' &&& 0xF0FF#16) : kkField w = kkField w' :=
  extractLsb'_eq_of_and_eq h (by decide)

theorem nField_eq_of_and_eq (h : w &&& 0xF00F#16 = w' &&& 0xF00F#16) : nField w = nField w' :=
  extractLsb'_eq_of_and_eq h (by decide)

/-- The decoder reads no bit but the row's fixed ones to find the row; SYS is what the other rows of op 0 leave. -/
theorem rowOf_decode_of_fixed_bits (i : Instr) (hsys : i.row.mnemonic ≠ "SYS_nnn")
    (h : w &&& i.row.mask = encode i &&& i.row.mask) : rowOf (decode w) = rowOf (decode (encode i)) := by
  have hop : opField w = opField (encode i) := extractLsb'_eq_of_and_eq h (opField_row_mask i)
  match i with
  | .sys _ => exact absurd rfl hsys
  | .jp _ | .call _ | .ldI _ | .jpV0 _ | .seImm _ _ | .sneImm _ _ | .ldImm _ _ | .addImm _ _ | .rnd _ _ | .seReg _ _ _
  | .sneReg _ _ _ | .drw _ _ _ => exact rowOf_decode_of_op hop (by rw [hop]; simp [encode, twoLevelOps])
  | .cls _ | .ret _ =>
    rw [decode_of_op0 (by simp [hop, encode]), decode_of_op0 (by simp [encode])]
    exact rowOf_decode0_of_kk (kkField_eq_of_and_eq h)
  | .ldReg _ _ | .orReg _ _ | .andReg _ _ | .xorReg _ _ | .addReg _ _ | .subReg _ _ | .shr _ _ | .subnReg _ _ | .shl _ _ =>
    rw [decode_of_op8 (by simp [hop, encode]), decode_of_op8 (by simp [encode])]
    exact rowOf_decode8_of_n (nField_eq_of_and_eq h)
  | .skp _ | .sknp _ =>
    rw [decode_of_opE (by simp [hop, encode]), decode_of_opE (by simp [encode])]
    exact rowOf_decodeE_of_kk (kkField_eq_of_and_eq h)
  | .ldVxDt _ | .ldVxK _ | .ldDtVx _ | .ldStVx _ | .addI _ | .ldF _ | .ldB _ | .storeRegs _ | .loadRegs _ =>
    rw [decode_of_opF (by simp [hop, encode]), decode_of_opF (by simp [encode])]
    exact rowOf_decodeF_of_kk (kkField_eq_of_and_eq h)

/-! ## The table -/

open MatchesRow in
/-- The encodings match their rows, one lemma a constructor. -/
theorem row_covers_encode (i : Instr) : Statement i :=
  Instr.rec (motive := Statement) cls ret sys jp call seImm sneImm seReg ldImm addImm ldReg orReg andReg xorReg addReg subReg
    shr subnReg shl sneReg ldI jpV0 rnd drw skp sknp ldVxDt ldVxK ldDtVx ldStVx addI ldF ldB storeRegs loadRegs i

theorem encode_and_mask (i : Instr) : encode i &&& i.row.mask = i.row.pattern := beq_iff_eq.1 (row_covers_encode i)

theorem wellFormed_of_row_ne_sys (i : Instr) (hsys : i.row.mnemonic ≠ "SYS_nnn") : i.wellFormed = true := by
  cases i with
  | sys nnn => exact absurd rfl hsys
  | _ => rfl

/-- Settles O5: a word that decodes to `i` is `i`'s encoding; a word with the fixed bits of `i`'s row agrees in them with it. -/
theorem decodeAgreesWithTheOpcodeTable : Obligations.DecodeAgreesWithTheOpcodeTable := by
  refine ⟨fun w i hd => ?_, fun w i hw hsys => ?_⟩
  · obtain ⟨rfl, -⟩ := encodeOfDecodeIsTheWord w i hd
    exact encode_and_mask i
  · have hrow := rowOf_decode_of_fixed_bits i hsys (hw.trans (encode_and_mask i).symm)
    rw [decodeOfEncodeIsTheInstruction i (wellFormed_of_row_ne_sys i hsys)] at hrow
    exact rowOf_eq_some hrow

end Sys2Proof.OpcodeTableProofs
end
